-- ==== Sys2Proof/Word.lean ====
section
/-! DEFINITION. The widths of the machine (rule R7) and the names the other files use for them. -/

namespace Sys2Proof

/-- A register, a latch data field, a memory word or an instruction: 32 bits (rules R7, R10). -/
abbrev Word := BitVec 32

/-- A byte, the unit in which the model keeps its two memories (log entry 3). -/
abbrev Byte := BitVec 8

/-- A register index, one of the 5-bit fields `rs`, `rt` and `rd` (rule R31). -/
abbrev RegIdx := BitVec 5

/-- The raw immediate, instruction bits 15..0 (rule R160). -/
abbrev Imm16 := BitVec 16

end Sys2Proof
end

