-- ==== Sys2Proof/Config.lean ====
section
/-! DEFINITION. The implementation parameters of rule R8. The ones that are data stand in one record, which a state
carries from launch on (log entry 1), so that every statement ranges over every setting; `LUI_EX_RESULT` is a constant
without a body (rule R9). -/

namespace Sys2Proof

/-- `UNCERTAIN_OPS` (rules R8, R167): what ADDU, SUBU, SLTU, ADDIU and SLTIU do. -/
inductive UncertainOps where
  /-- `refuse`: the FD position refuses the word (rule R121). -/
  | refuse
  /-- `no_op`: the word is an unsupported encoding (rule R115). -/
  | noOp
  /-- `alias`: the word takes the control row of its twin ADD, SUB, SLT, ADDI or SLTI (rule R79). -/
  | twin
  deriving DecidableEq, Repr

/-- `STORE_SHADOW_MATCH` (rules R8, R68): how the store hazard tests the one-ahead latch. -/
inductive StoreShadowMatch where
  /-- `write_gated`: the one-ahead instruction must also write a register. -/
  | writeGated
  /-- `dest_only`: the destination alone is compared. -/
  | destOnly
  deriving DecidableEq, Repr

/-- `SLT_MODE` (rules R8, R87): which sign the signed less-than takes. -/
inductive SltMode where
  /-- `wrapped_sign`: bit 31 of the 32-bit sum. -/
  | wrappedSign
  /-- `exact_sign`: the sign of the integer sum. -/
  | exactSign
  deriving DecidableEq, Repr

/-- The parameters of rule R8 that are data. They are fixed for a run (rule R43). -/
structure Config where
  /-- `DMEM_WORDS`, the number of words of data memory; rule R8 has it at least 1 (`Config.Valid`). -/
  dmemWords : Nat
  /-- `UNCERTAIN_OPS` -/
  uncertainOps : UncertainOps
  /-- `STORE_SHADOW_MATCH` -/
  storeShadowMatch : StoreShadowMatch
  /-- `SLT_MODE` -/
  sltMode : SltMode
  /-- `RF_WRITE_BEFORE_READ` -/
  rfWriteBeforeRead : Bool
  deriving DecidableEq, Repr

/-- Rule R8: `DMEM_WORDS` is a natural number of at least 1. -/
abbrev Config.Valid (c : Config) : Prop := 1 ≤ c.dmemWords

/-- The defaults of rule R8. `DMEM_WORDS` is OPEN and has none: 64 is the value every vector of
spec/95_test_vectors.md takes (DESIGN CHOICE, unsafe, log entry 6). -/
def Config.standard : Config where
  dmemWords := 64
  uncertainOps := .refuse
  storeShadowMatch := .writeGated
  sltMode := .wrappedSign
  rfWriteBeforeRead := true

/-- `LUI_EX_RESULT` (rules R8, R9, R93): the ALU-result field the EX stage produces for LUI, an uninterpreted total
function of the first ALU input and the raw immediate. It has no body, so a proof that uses it holds for every such
function (log entry 12). -/
opaque Config.luiExResult : Word → Imm16 → Word

end Sys2Proof
end

