-- ==== Sys2Proof/Syntax.lean ====
section
/-! DEFINITION. The instructions: one constructor per row of spec/opcode_table.json, with every field of the row's
format as an operand (rules R161 to R163), so that an instruction determines its word. -/

namespace Sys2Proof

/-- The decoded instructions (rules R165, R167, R168). Fields a format ignores for dispatch are operands all the same,
because the ID/EX latch captures them (rules R166, R78). -/
inductive Instr where
  -- register-register ALU instructions (rules R102 to R108)
  | add (rs rt rd : RegIdx) (shamt : BitVec 5)
  | sub (rs rt rd : RegIdx) (shamt : BitVec 5)
  | and (rs rt rd : RegIdx) (shamt : BitVec 5)
  | or (rs rt rd : RegIdx) (shamt : BitVec 5)
  | xor (rs rt rd : RegIdx) (shamt : BitVec 5)
  | nor (rs rt rd : RegIdx) (shamt : BitVec 5)
  | slt (rs rt rd : RegIdx) (shamt : BitVec 5)
  -- control transfers (rules R150 to R152)
  | j (address : BitVec 26)
  | beq (rs rt : RegIdx) (imm : Imm16)
  | bne (rs rt : RegIdx) (imm : Imm16)
  -- immediate ALU instructions (rules R180, R112, R181 to R184)
  | addi (rs rt : RegIdx) (imm : Imm16)
  | slti (rs rt : RegIdx) (imm : Imm16)
  | andi (rs rt : RegIdx) (imm : Imm16)
  | ori (rs rt : RegIdx) (imm : Imm16)
  | xori (rs rt : RegIdx) (imm : Imm16)
  | lui (rs rt : RegIdx) (imm : Imm16)
  -- load and store (rules R140, R141)
  | lw (rs rt : RegIdx) (imm : Imm16)
  | sw (rs rt : RegIdx) (imm : Imm16)
  -- the uncertain encodings (rules R109 to R111, R185, R186)
  | addu (rs rt rd : RegIdx) (shamt : BitVec 5)
  | subu (rs rt rd : RegIdx) (shamt : BitVec 5)
  | sltu (rs rt rd : RegIdx) (shamt : BitVec 5)
  | addiu (rs rt : RegIdx) (imm : Imm16)
  | sltiu (rs rt : RegIdx) (imm : Imm16)
  -- every other word (rules R115, R119, R168)
  | unsupported (word : Word)
  deriving DecidableEq, Repr

/-- The mnemonic of an instruction, as the opcode map of rule R165 and the table write it. -/
def Instr.mnemonic : Instr → String
  | .add .. => "ADD"
  | .sub .. => "SUB"
  | .and .. => "AND"
  | .or .. => "OR"
  | .xor .. => "XOR"
  | .nor .. => "NOR"
  | .slt .. => "SLT"
  | .j .. => "J"
  | .beq .. => "BEQ"
  | .bne .. => "BNE"
  | .addi .. => "ADDI"
  | .slti .. => "SLTI"
  | .andi .. => "ANDI"
  | .ori .. => "ORI"
  | .xori .. => "XORI"
  | .lui .. => "LUI"
  | .lw .. => "LW"
  | .sw .. => "SW"
  | .addu .. => "ADDU"
  | .subu .. => "SUBU"
  | .sltu .. => "SLTU"
  | .addiu .. => "ADDIU"
  | .sltiu .. => "SLTIU"
  | .unsupported .. => "(unsupported)"

end Sys2Proof
end

