-- ==== Sys2Proof/WellFormed.lean ====
section
/-! DEFINITION. Which terms of `Instr` stand for words of the machine. Every operand has exactly the width of its
field, so the only check is the one on the catch-all row: a word that some other row of the opcode table claims is not
an unsupported encoding (rule R168). The check is written from the table's masks and matches, not from the decoder. -/

namespace Sys2Proof

/-- A row of spec/opcode_table.json: the bits it fixes and their values. -/
structure OpcodeRow where
  mask : Word
  value : Word
  deriving DecidableEq, Repr

/-- Whether a word belongs to a row. -/
def OpcodeRow.claims (r : OpcodeRow) (w : Word) : Bool := w &&& r.mask == r.value

/-- The rows of opcode 0: mask `0xFC00003F` (rules R102 to R111). -/
def functRows : List OpcodeRow :=
  [0x00000020#32, 0x00000022#32, 0x00000024#32, 0x00000025#32, 0x00000026#32, 0x00000027#32, 0x0000002A#32,
    0x00000021#32, 0x00000023#32, 0x0000002B#32].map (OpcodeRow.mk 0xFC00003F#32)

/-- The rows of the other opcodes: mask `0xFC000000` (rules R112, R140, R141, R150 to R152, R180 to R186). -/
def opcodeRows : List OpcodeRow :=
  [0x08000000#32, 0x10000000#32, 0x14000000#32, 0x20000000#32, 0x28000000#32, 0x30000000#32, 0x34000000#32,
    0x38000000#32, 0x3C000000#32, 0x8C000000#32, 0xAC000000#32, 0x24000000#32,
    0x2C000000#32].map (OpcodeRow.mk 0xFC000000#32)

/-- Whether an instruction is one the decoder can give: an unsupported word is claimed by no other row. -/
def Instr.wellFormed : Instr → Bool
  | .unsupported w => (functRows ++ opcodeRows).all fun r => !r.claims w
  | .add .. => true
  | .sub .. => true
  | .and .. => true
  | .or .. => true
  | .xor .. => true
  | .nor .. => true
  | .slt .. => true
  | .j .. => true
  | .beq .. => true
  | .bne .. => true
  | .addi .. => true
  | .slti .. => true
  | .andi .. => true
  | .ori .. => true
  | .xori .. => true
  | .lui .. => true
  | .lw .. => true
  | .sw .. => true
  | .addu .. => true
  | .subu .. => true
  | .sltu .. => true
  | .addiu .. => true
  | .sltiu .. => true

end Sys2Proof
end

