-- ==== Sys2Proof/Decode.lean ====
section
/-! DEFINITION. The Instruction Decoder (rules R160 to R170): the slicing of a word into its fields, the dispatch on
`opcode` and `funct`, and after it the encoder, written from the same formats. Every 32-bit word decodes, so the only
rejection is of a byte sequence that is not one whole word. -/

namespace Sys2Proof

/-- `sext_32` of rule R11: 16 copies of bit 15 above the value. -/
def sext32 (v : Imm16) : Word := v.signExtend 32

/-- `zext_32` of rule R11, of a 16-bit value. -/
def zext32 (v : Imm16) : Word := v.setWidth 32

/-- The decoded fields of a word, all of them whatever the opcode (rule R160). -/
structure Fields where
  opcode : BitVec 6
  rs : RegIdx
  rt : RegIdx
  rd : RegIdx
  shamt : BitVec 5
  funct : BitVec 6
  imm16 : Imm16
  imm32 : Word
  address : BitVec 26
  deriving DecidableEq, Repr

/-- `decode(word) -> InstructionFields` of rule R160: the bit positions of every field. -/
def sliceWord (w : Word) : Fields where
  opcode := w.extractLsb' 26 6
  rs := w.extractLsb' 21 5
  rt := w.extractLsb' 16 5
  rd := w.extractLsb' 11 5
  shamt := w.extractLsb' 6 5
  funct := w.extractLsb' 0 6
  imm16 := w.extractLsb' 0 16
  imm32 := sext32 (w.extractLsb' 0 16)
  address := w.extractLsb' 0 26

/-- The fields of an R-format word (rule R161): the 16 low bits are `rd`, `shamt` and `funct`. -/
def fieldsR (rs rt rd : RegIdx) (shamt : BitVec 5) (funct : BitVec 6) : Fields where
  opcode := 0
  rs := rs
  rt := rt
  rd := rd
  shamt := shamt
  funct := funct
  imm16 := rd ++ shamt ++ funct
  imm32 := sext32 (rd ++ shamt ++ funct)
  address := rs ++ rt ++ rd ++ shamt ++ funct

/-- The fields of an I-format word (rule R162). -/
def fieldsI (opcode : BitVec 6) (rs rt : RegIdx) (imm : Imm16) : Fields where
  opcode := opcode
  rs := rs
  rt := rt
  rd := imm.extractLsb' 11 5
  shamt := imm.extractLsb' 6 5
  funct := imm.extractLsb' 0 6
  imm16 := imm
  imm32 := sext32 imm
  address := rs ++ rt ++ imm

/-- The fields of a J-format word (rule R163): `rs`, `rt` and the 16 low bits are slices of `address`. -/
def fieldsJ (address : BitVec 26) : Fields where
  opcode := 2
  rs := address.extractLsb' 21 5
  rt := address.extractLsb' 16 5
  rd := address.extractLsb' 11 5
  shamt := address.extractLsb' 6 5
  funct := address.extractLsb' 0 6
  imm16 := address.extractLsb' 0 16
  imm32 := sext32 (address.extractLsb' 0 16)
  address := address

/-- The fields every sub-block sees of an instruction: those its word is sliced into (the family `FieldsAgree` of
Laws/PerInstr.lean says so for each constructor). -/
def Instr.fields : Instr → Fields
  | .add rs rt rd shamt => fieldsR rs rt rd shamt 0x20
  | .sub rs rt rd shamt => fieldsR rs rt rd shamt 0x22
  | .and rs rt rd shamt => fieldsR rs rt rd shamt 0x24
  | .or rs rt rd shamt => fieldsR rs rt rd shamt 0x25
  | .xor rs rt rd shamt => fieldsR rs rt rd shamt 0x26
  | .nor rs rt rd shamt => fieldsR rs rt rd shamt 0x27
  | .slt rs rt rd shamt => fieldsR rs rt rd shamt 0x2A
  | .j address => fieldsJ address
  | .beq rs rt imm => fieldsI 4 rs rt imm
  | .bne rs rt imm => fieldsI 5 rs rt imm
  | .addi rs rt imm => fieldsI 8 rs rt imm
  | .slti rs rt imm => fieldsI 10 rs rt imm
  | .andi rs rt imm => fieldsI 12 rs rt imm
  | .ori rs rt imm => fieldsI 13 rs rt imm
  | .xori rs rt imm => fieldsI 14 rs rt imm
  | .lui rs rt imm => fieldsI 15 rs rt imm
  | .lw rs rt imm => fieldsI 35 rs rt imm
  | .sw rs rt imm => fieldsI 43 rs rt imm
  | .addu rs rt rd shamt => fieldsR rs rt rd shamt 0x21
  | .subu rs rt rd shamt => fieldsR rs rt rd shamt 0x23
  | .sltu rs rt rd shamt => fieldsR rs rt rd shamt 0x2B
  | .addiu rs rt imm => fieldsI 9 rs rt imm
  | .sltiu rs rt imm => fieldsI 11 rs rt imm
  | .unsupported w => sliceWord w

/-- Dispatch on `funct` under opcode 0 (rules R165, R167, R168). -/
def decodeFunct (w : Word) (f : Fields) : Instr :=
  if f.funct = 0x20 then .add f.rs f.rt f.rd f.shamt
  else if f.funct = 0x21 then .addu f.rs f.rt f.rd f.shamt
  else if f.funct = 0x22 then .sub f.rs f.rt f.rd f.shamt
  else if f.funct = 0x23 then .subu f.rs f.rt f.rd f.shamt
  else if f.funct = 0x24 then .and f.rs f.rt f.rd f.shamt
  else if f.funct = 0x25 then .or f.rs f.rt f.rd f.shamt
  else if f.funct = 0x26 then .xor f.rs f.rt f.rd f.shamt
  else if f.funct = 0x27 then .nor f.rs f.rt f.rd f.shamt
  else if f.funct = 0x2A then .slt f.rs f.rt f.rd f.shamt
  else if f.funct = 0x2B then .sltu f.rs f.rt f.rd f.shamt
  else .unsupported w

/-- Dispatch on `opcode` (rules R165 to R168). -/
def decodeOpcode (w : Word) (f : Fields) : Instr :=
  if f.opcode = 0 then decodeFunct w f
  else if f.opcode = 2 then .j f.address
  else if f.opcode = 4 then .beq f.rs f.rt f.imm16
  else if f.opcode = 5 then .bne f.rs f.rt f.imm16
  else if f.opcode = 8 then .addi f.rs f.rt f.imm16
  else if f.opcode = 9 then .addiu f.rs f.rt f.imm16
  else if f.opcode = 10 then .slti f.rs f.rt f.imm16
  else if f.opcode = 11 then .sltiu f.rs f.rt f.imm16
  else if f.opcode = 12 then .andi f.rs f.rt f.imm16
  else if f.opcode = 13 then .ori f.rs f.rt f.imm16
  else if f.opcode = 14 then .xori f.rs f.rt f.imm16
  else if f.opcode = 15 then .lui f.rs f.rt f.imm16
  else if f.opcode = 35 then .lw f.rs f.rt f.imm16
  else if f.opcode = 43 then .sw f.rs f.rt f.imm16
  else .unsupported w

/-- The instruction a word is: total, without an error output (rules R67, R160, R169). -/
def decode (w : Word) : Instr := decodeOpcode w (sliceWord w)

/-- Why a byte sequence is no instruction. A word never is rejected (rule R169). -/
inductive DecodeError where
  /-- Fewer than the four bytes of a word (rule R170: there is no other length). -/
  | truncated
  deriving DecidableEq, Repr

/-- The word of four bytes, lowest address first. The byte order is not observable (rule R52); the model takes the
lowest byte first (DESIGN CHOICE, safe, log entry 3). -/
def wordOfBytes (b0 b1 b2 b3 : Byte) : Word := b3 ++ b2 ++ b1 ++ b0

/-- Byte `k` of a word in the model's byte order, `k` counted from the lowest address (log entry 3). -/
def byteOfWord (w : Word) (k : Nat) : Byte := w.extractLsb' (8 * k) 8

/-- Decode the instruction at the head of a byte sequence and give the rest of it. -/
def decodeBytes : List Byte → Except DecodeError (Instr × List Byte)
  | b0 :: b1 :: b2 :: b3 :: rest => .ok (decode (wordOfBytes b0 b1 b2 b3), rest)
  | _ => .error .truncated

/-- The word the opcode table's bits stand for: the low `nbits` bits of `w`, zeros above. -/
def tableWord (nbits w : Nat) : Word := BitVec.ofNat 32 (w % 2 ^ nbits)

/-- The four bytes of a word, lowest address first. -/
def bytesOfWord (w : Word) : List Byte := [byteOfWord w 0, byteOfWord w 1, byteOfWord w 2, byteOfWord w 3]

/-- The instruction the decoder reads from an instruction numbered as spec/opcode_table.json numbers it. An
instruction is one 32-bit word (rule R160), so more than 32 bits is refused. -/
def decodeTableWord (nbits w : Nat) : Option Instr :=
  if nbits ≤ 32 then
    match decodeBytes (bytesOfWord (tableWord nbits w)) with
    | .ok (i, _) => some i
    | .error _ => none
  else none

/-- An R-format word (rule R161). -/
def wordR (rs rt rd : RegIdx) (shamt : BitVec 5) (funct : BitVec 6) : Word :=
  (0 : BitVec 6) ++ rs ++ rt ++ rd ++ shamt ++ funct

/-- An I-format word (rule R162). -/
def wordI (opcode : BitVec 6) (rs rt : RegIdx) (imm : Imm16) : Word := opcode ++ rs ++ rt ++ imm

/-- A J-format word (rule R163). -/
def wordJ (address : BitVec 26) : Word := (2 : BitVec 6) ++ address

/-- The word of an instruction, from the formats and numbers of rules R161 to R167. -/
def encode : Instr → Word
  | .add rs rt rd shamt => wordR rs rt rd shamt 0x20
  | .sub rs rt rd shamt => wordR rs rt rd shamt 0x22
  | .and rs rt rd shamt => wordR rs rt rd shamt 0x24
  | .or rs rt rd shamt => wordR rs rt rd shamt 0x25
  | .xor rs rt rd shamt => wordR rs rt rd shamt 0x26
  | .nor rs rt rd shamt => wordR rs rt rd shamt 0x27
  | .slt rs rt rd shamt => wordR rs rt rd shamt 0x2A
  | .j address => wordJ address
  | .beq rs rt imm => wordI 4 rs rt imm
  | .bne rs rt imm => wordI 5 rs rt imm
  | .addi rs rt imm => wordI 8 rs rt imm
  | .slti rs rt imm => wordI 10 rs rt imm
  | .andi rs rt imm => wordI 12 rs rt imm
  | .ori rs rt imm => wordI 13 rs rt imm
  | .xori rs rt imm => wordI 14 rs rt imm
  | .lui rs rt imm => wordI 15 rs rt imm
  | .lw rs rt imm => wordI 35 rs rt imm
  | .sw rs rt imm => wordI 43 rs rt imm
  | .addu rs rt rd shamt => wordR rs rt rd shamt 0x21
  | .subu rs rt rd shamt => wordR rs rt rd shamt 0x23
  | .sltu rs rt rd shamt => wordR rs rt rd shamt 0x2B
  | .addiu rs rt imm => wordI 9 rs rt imm
  | .sltiu rs rt imm => wordI 11 rs rt imm
  | .unsupported w => w

end Sys2Proof
end

