-- ==== Sys2Proof/Machine/State.lean ====
section
/-! DEFINITION. The machine state (rules R30 to R45), the outcomes that are no next state (rules R120, R121) and the
state after reset (rules R45, R130). -/

namespace Sys2Proof.Machine

/-- A memory: the bytes that differ from what an unlisted address reads as, by rising address (log entry 3). -/
abbrev Memory := List Host.Cell

/-- What a byte reads as that the list does not hold. Rule R45 gives data memory no reset value; zero is the model's
(DESIGN CHOICE, unsafe, log entry 5). -/
def Memory.unlisted : Byte := 0

/-- The canonical form: addresses strictly rising, and no entry equal to what an unlisted address reads as. -/
abbrev Memory.wf (m : Memory) : Prop :=
  m.Pairwise (fun x y => x.1 < y.1) ∧ ∀ c ∈ m, c.2 ≠ Memory.unlisted

/-- The register file `RF` (rule R31). Register 0 is stored like any other. -/
abbrev RegFile := Vector Word 32

/-- `ALUsrc`, the selector of the second ALU operand (rule R36). Code 3 is never produced and left out (D36). -/
inductive AluSrc where
  /-- 0: register operand -/
  | reg
  /-- 1: sign-extended immediate -/
  | signExt
  /-- 2: zero-extended immediate -/
  | zeroExt
  deriving DecidableEq, Repr

/-- `aluOp`, the ALU operation class (rule R36). Codes 6 and 7 are never produced and left out (D36). -/
inductive AluOp where
  | nop
  | and
  | or
  | add
  | slt
  | xor
  deriving DecidableEq, Repr

/-- `extra1` (rule R36). Code 3 is never produced and left out (D36). -/
inductive Extra1 where
  | none
  | nor
  | lui
  deriving DecidableEq, Repr

/-- The numeric codes of rule R36 (D31). -/
def AluSrc.code : AluSrc → BitVec 2
  | .reg => 0
  | .signExt => 1
  | .zeroExt => 2

/-- The numeric codes of rule R36 (D31). -/
def AluOp.code : AluOp → BitVec 3
  | .nop => 0
  | .and => 1
  | .or => 2
  | .add => 3
  | .slt => 4
  | .xor => 5

/-- The numeric codes of rule R36 (D31). -/
def Extra1.code : Extra1 → BitVec 2
  | .none => 0
  | .nor => 1
  | .lui => 2

/-- The ID/EX latch (rule R36): the instruction in the EX position. -/
structure IdEx where
  rs : RegIdx
  rt : RegIdx
  rd : RegIdx
  rsVal : Word
  rtVal : Word
  imm16 : Imm16
  imm32 : Word
  aluSrc : AluSrc
  aluOp : AluOp
  negate : Bool
  memRead : Bool
  memWrite : Bool
  memToReg : Bool
  /-- Carried and read by no rule (rule R41). -/
  regDst : Bool
  regWrite : Bool
  extra1 : Extra1
  deriving DecidableEq, Repr

/-- The EX/MEM latch (rule R37): the instruction in the MEM position. -/
structure ExMem where
  aluResult : Word
  dest : RegIdx
  storeVal : Word
  memRead : Bool
  memWrite : Bool
  memToReg : Bool
  regWrite : Bool
  extra1 : Extra1
  imm16 : Imm16
  deriving DecidableEq, Repr

/-- The MEM/WB latch (rule R38): the instruction in the WB position. -/
structure MemWb where
  aluResult : Word
  memResult : Word
  dest : RegIdx
  memToReg : Bool
  regWrite : Bool
  extra1 : Extra1
  imm16 : Imm16
  deriving DecidableEq, Repr

/-- The zero ID/EX latch, the bubble (rule R39). -/
def IdEx.zero : IdEx where
  rs := 0
  rt := 0
  rd := 0
  rsVal := 0
  rtVal := 0
  imm16 := 0
  imm32 := 0
  aluSrc := .reg
  aluOp := .nop
  negate := false
  memRead := false
  memWrite := false
  memToReg := false
  regDst := false
  regWrite := false
  extra1 := .none

/-- The zero EX/MEM latch (rule R39). -/
def ExMem.zero : ExMem where
  aluResult := 0
  dest := 0
  storeVal := 0
  memRead := false
  memWrite := false
  memToReg := false
  regWrite := false
  extra1 := .none
  imm16 := 0

/-- The zero MEM/WB latch (rule R39). -/
def MemWb.zero : MemWb where
  aluResult := 0
  memResult := 0
  dest := 0
  memToReg := false
  regWrite := false
  extra1 := .none
  imm16 := 0

/-- The run status (rule R43). `Faulted` and `Refused` are the outcomes `fault` and `refused` of a step, which end the
run and carry the same information (log entry 9). -/
inductive RunStatus where
  /-- `Running`: the next cycle is taken. -/
  | running
  /-- `Ended` (rule R133): no further cycle is taken. -/
  | ended
  deriving DecidableEq, Repr

/-- The kind of a faulting access (rule R120). -/
inductive Access where
  | load
  | store
  deriving DecidableEq, Repr

/-- What ends a run in a fault. -/
inductive Fault where
  /-- `MemFault(access, addr)` (rule R120): raised by the Memory Stage for the load or store in the MEM position when
  its byte address is misaligned or outside the data memory. Safe: the source gives such an access no meaning. -/
  | memFault (access : Access) (addr : Word)
  deriving DecidableEq, Repr

/-- What ends a run in a refusal. -/
inductive Refusal where
  /-- An instruction that has no meaning yet, by its mnemonic: raised by `exec` alone. Safe. No arm raises it. -/
  | notModelled (mnemonic : String)
  /-- `UncertainEncoding(pc, word)` (rule R121): raised by the Control/Decode Stage for ADDU, SUBU, SLTU, ADDIU and
  SLTIU under `UNCERTAIN_OPS = refuse`. Safe: the source does not settle whether the word is supported. -/
  | uncertainEncoding (pc word : Word)
  deriving DecidableEq, Repr

/-- The machine state (rule R43), with the launch inputs that are fixed for a run (log entries 1 and 2). -/
structure State where
  /-- The program counter (rule R33). -/
  pc : Word
  /-- The ID/EX latch (rule R36). -/
  idex : IdEx
  /-- The EX/MEM latch (rule R37). -/
  exmem : ExMem
  /-- The MEM/WB latch (rule R38). -/
  memwb : MemWb
  /-- The register file (rule R31). -/
  rf : RegFile
  /-- The data memory `DMEM` (rule R42), word k at the byte addresses 4k to 4k+3. -/
  dmem : Memory
  /-- The instruction memory (rule R30), word k of `IMAGE` at the byte addresses 4k to 4k+3. -/
  imem : Memory
  /-- `N`, the number of words of `IMAGE` (rules R8, R30). -/
  imageWords : Nat
  /-- The run status (rule R43). -/
  status : RunStatus
  /-- The parameters (rule R8). -/
  cfg : Config
  deriving DecidableEq, Repr

/-- The machine right after reset (rules R45, R130), with no program loaded: `pc` is 0, the latches are bubbles, and
the empty image makes the status `Ended` at once. The launch inputs, for which the spec gives no value, are the
model's: registers and data memory zero, no image, the standard parameters (log entries 4 to 8). `State.launch` in
Machine/Ops.lean is reset for any launch inputs. -/
def State.reset : State where
  pc := 0
  idex := .zero
  exmem := .zero
  memwb := .zero
  rf := Vector.replicate 32 0
  dmem := []
  imem := []
  imageWords := 0
  status := .ended
  cfg := Config.standard

end Sys2Proof.Machine
end

