-- ==== Sys2Proof/Machine/Control.lean ====
section
/-! DEFINITION. The control truth table of rule R79: one control tuple per instruction that fills a latch. BEQ, BNE, J
and unsupported words have none (rule R81); an uncertain encoding takes its twin's under `UNCERTAIN_OPS` = twin. After
the table, the dispatch of a word's fields to its row. -/

namespace Sys2Proof.Machine

/-- A row of the control truth table (rule R79). -/
structure Control where
  aluSrc : AluSrc
  aluOp : AluOp
  negate : Bool := false
  memRead : Bool := false
  memWrite : Bool := false
  memToReg : Bool := false
  regDst : Bool := false
  regWrite : Bool := false
  extra1 : Extra1 := .none
  deriving DecidableEq, Repr

/-- The row of ADD (rule R102). -/
def rowAdd : Control := { aluSrc := .reg, aluOp := .add, regDst := true, regWrite := true }

/-- The row of SUB: addition with `negate` (rule R103). -/
def rowSub : Control := { aluSrc := .reg, aluOp := .add, negate := true, regDst := true, regWrite := true }

/-- The row of AND (rule R104). -/
def rowAnd : Control := { aluSrc := .reg, aluOp := .and, regDst := true, regWrite := true }

/-- The row of OR (rule R105). -/
def rowOr : Control := { aluSrc := .reg, aluOp := .or, regDst := true, regWrite := true }

/-- The row of XOR (rule R106). -/
def rowXor : Control := { aluSrc := .reg, aluOp := .xor, regDst := true, regWrite := true }

/-- The row of NOR: OR with `extra1 = NOR` (rule R107). -/
def rowNor : Control := { aluSrc := .reg, aluOp := .or, regDst := true, regWrite := true, extra1 := .nor }

/-- The row of SLT: signed less-than with `negate` (rule R108). -/
def rowSlt : Control := { aluSrc := .reg, aluOp := .slt, negate := true, regDst := true, regWrite := true }

/-- The row of ADDI (rule R180). -/
def rowAddi : Control := { aluSrc := .signExt, aluOp := .add, regWrite := true }

/-- The row of SLTI (rule R112). -/
def rowSlti : Control := { aluSrc := .signExt, aluOp := .slt, negate := true, regWrite := true }

/-- The row of ANDI (rule R181). -/
def rowAndi : Control := { aluSrc := .zeroExt, aluOp := .and, regWrite := true }

/-- The row of ORI (rule R182). -/
def rowOri : Control := { aluSrc := .zeroExt, aluOp := .or, regWrite := true }

/-- The row of XORI (rule R183). -/
def rowXori : Control := { aluSrc := .zeroExt, aluOp := .xor, regWrite := true }

/-- The row of LUI (rule R184). -/
def rowLui : Control := { aluSrc := .signExt, aluOp := .nop, regWrite := true, extra1 := .lui }

/-- The row of LW (rule R140). -/
def rowLw : Control := { aluSrc := .signExt, aluOp := .add, memRead := true, memToReg := true, regWrite := true }

/-- The row of SW (rule R141). -/
def rowSw : Control := { aluSrc := .signExt, aluOp := .add, memWrite := true }

/-! ### The dispatch on `opcode` and `funct` -/

/-- What the Control/Decode Stage finds a word to be (rules R78, R81, R83). -/
inductive Bundle where
  /-- A word with a row of rule R79: it fills the ID/EX latch. -/
  | fills (row : Control)
  /-- A branch, a jump or an unsupported word: it leaves the zero latch (rule R81). -/
  | clears
  /-- An uncertain encoding, with the row of its twin (rule R83). -/
  | uncertain (twin : Control)
  deriving DecidableEq, Repr

/-- The row that fills the ID/EX latch, if one does. An uncertain encoding keeps its own fields beside its twin's row
(DEDUCED, log entry 14). Under `refuse` nothing of the cycle is committed, so no row is taken (rules R64, R83). -/
def Bundle.row (cfg : Config) : Bundle → Option Control
  | .fills c => some c
  | .clears => none
  | .uncertain twin =>
    match cfg.uncertainOps with
    | .twin => some twin
    | .noOp => none
    | .refuse => none

/-- The stage refuses the word: an uncertain encoding under `UNCERTAIN_OPS = refuse` (rules R83, R121). -/
def Bundle.refused (cfg : Config) : Bundle → Bool
  | .fills _ => false
  | .clears => false
  | .uncertain _ => cfg.uncertainOps == .refuse

/-- The dispatch on `funct` under opcode 0 (rules R79, R83). -/
def bundleOfFunct (funct : BitVec 6) : Bundle :=
  if funct = 0x20 then .fills rowAdd
  else if funct = 0x21 then .uncertain rowAdd
  else if funct = 0x22 then .fills rowSub
  else if funct = 0x23 then .uncertain rowSub
  else if funct = 0x24 then .fills rowAnd
  else if funct = 0x25 then .fills rowOr
  else if funct = 0x26 then .fills rowXor
  else if funct = 0x27 then .fills rowNor
  else if funct = 0x2A then .fills rowSlt
  else if funct = 0x2B then .uncertain rowSlt
  else .clears

/-- The dispatch on `opcode`, and on `funct` when `opcode = 0` (rules R78, R79, R81, R83, R166). -/
def bundleOf (f : Fields) : Bundle :=
  if f.opcode = 0 then bundleOfFunct f.funct
  else if f.opcode = 8 then .fills rowAddi
  else if f.opcode = 9 then .uncertain rowAddi
  else if f.opcode = 10 then .fills rowSlti
  else if f.opcode = 11 then .uncertain rowSlti
  else if f.opcode = 12 then .fills rowAndi
  else if f.opcode = 13 then .fills rowOri
  else if f.opcode = 14 then .fills rowXori
  else if f.opcode = 15 then .fills rowLui
  else if f.opcode = 35 then .fills rowLw
  else if f.opcode = 43 then .fills rowSw
  else .clears

end Sys2Proof.Machine
end

