-- ==== Sys2Proof/Machine/Ops.lean ====
section
/-! DEFINITION. The named operations over memory and registers: bytes and words of a memory, the access check and
primitives of rules R50 and R51, the register file's ports, instruction fetch, launch, and the end-of-run test.

Taking an exception and returning from one: the hardware takes none and has no return (rules R117, R125, R126), so
there is no saved register, status, mode or vector to write. The one shared operation in their place is `memFault?`
below, the model fault of rule R120, which commits nothing. -/

namespace Sys2Proof.Machine

/-! ### Bytes -/

/-- Read one byte. -/
def Memory.readByte : Memory → Nat → Byte
  | [], _ => Memory.unlisted
  | (b, v) :: m, a => if a = b then v else Memory.readByte m a

/-- Put a byte in front of the entries above it, unless it is what an unlisted address reads as. -/
def Memory.consByte (a : Nat) (v : Byte) (m : Memory) : Memory :=
  if v = Memory.unlisted then m else (a, v) :: m

/-- Write one byte, keeping the canonical form. -/
def Memory.writeByte : Memory → Nat → Byte → Memory
  | [], a, v => Memory.consByte a v []
  | (b, u) :: m, a, v =>
    if a < b then Memory.consByte a v ((b, u) :: m)
    else if a = b then Memory.consByte a v m
    else (b, u) :: Memory.writeByte m a v

/-! ### Words -/

/-- Read the word whose four bytes begin at address `a`. -/
def Memory.readWord (m : Memory) (a : Nat) : Word :=
  wordOfBytes (m.readByte a) (m.readByte (a + 1)) (m.readByte (a + 2)) (m.readByte (a + 3))

/-- Write the word whose four bytes begin at address `a`. -/
def Memory.writeWord (m : Memory) (a : Nat) (v : Word) : Memory :=
  (((m.writeByte a (byteOfWord v 0)).writeByte (a + 1) (byteOfWord v 1)).writeByte (a + 2)
    (byteOfWord v 2)).writeByte (a + 3) (byteOfWord v 3)

/-- Lay a list of words out from word index `k` on. -/
def Memory.ofWords (k : Nat) : List Word → Memory
  | [] => []
  | w :: ws => (Memory.ofWords (k + 1) ws).writeWord (4 * k) w

/-! ### Data memory -/

/-- The word index of a byte address, `addr >> 2` (rules R50, R98). -/
def wordIndex (addr : Word) : Nat := (addr >>> 2).toNat

/-- `addr[1:0] = 0` (rules R30, R50). -/
def aligned (addr : Word) : Bool := addr.extractLsb' 0 2 == 0

/-- The two conditions under which an access is defined (rules R50, R51). -/
def accessOk (cfg : Config) (addr : Word) : Bool := aligned addr && decide (wordIndex addr < cfg.dmemWords)

/-- The model fault of rule R120, if the access is not defined. -/
def memFault? (cfg : Config) (access : Access) (addr : Word) : Option Fault :=
  if accessOk cfg addr then none else some (.memFault access addr)

/-- `MemRead(addr, 4)` (rule R50). -/
def memRead (cfg : Config) (dmem : Memory) (addr : Word) : Except Fault Word :=
  match memFault? cfg .load addr with
  | some e => .error e
  | none => .ok (dmem.readWord (4 * wordIndex addr))

/-- `MemWrite(addr, 4, v)` (rule R51). -/
def memWrite (cfg : Config) (dmem : Memory) (addr v : Word) : Except Fault Memory :=
  match memFault? cfg .store addr with
  | some e => .error e
  | none => .ok (dmem.writeWord (4 * wordIndex addr) v)

/-! ### Registers -/

/-- `x[r]` (rules R12, R31). No register has a hardwired value. -/
def RegFile.read (rf : RegFile) (r : RegIdx) : Word := rf[r.toNat]'r.isLt

/-- `x[r] <- v` (rules R12, R31). Register 0 is written like any other. -/
def RegFile.write (rf : RegFile) (r : RegIdx) (v : Word) : RegFile := rf.set r.toNat v r.isLt

/-! ### Instruction memory -/

/-- `Fetch(pc)` (rules R30, R65): the image's word, or the no-op word outside the image. -/
def fetch (imem : Memory) (imageWords : Nat) (pc : Word) : Word :=
  if aligned pc && decide (wordIndex pc < imageWords) then imem.readWord (4 * wordIndex pc) else 0

/-- The word in the FD position. -/
def State.fetchWord (s : State) : Word := fetch s.imem s.imageWords s.pc

/-! ### End of run and launch -/

/-- An ID/EX latch that writes nothing and reads no memory (rule R133). -/
def IdEx.idle (l : IdEx) : Bool := !l.regWrite && !l.memRead && !l.memWrite

/-- An EX/MEM latch that writes nothing and reads no memory (rule R133). -/
def ExMem.idle (l : ExMem) : Bool := !l.regWrite && !l.memRead && !l.memWrite

/-- The pipeline is idle (rule R133). -/
def State.idle (s : State) : Bool := s.idex.idle && s.exmem.idle && !s.memwb.regWrite

/-- The PC is at or past the end of the image (rule R133). -/
def State.pastImage (s : State) : Bool := decide (s.imageWords ≤ wordIndex s.pc)

/-- Apply the end-of-run test of rule R133 at a cycle boundary (rule R64). -/
def State.atBoundary (s : State) : State :=
  { s with status := if s.pastImage && s.idle then .ended else .running }

/-- The state after reset for given launch inputs (rules R8, R45, R130, R132): `IMAGE`, `RF0`, `DMEM0` and the
parameters. -/
def State.launch (image : List Word) (rf0 : RegFile) (dmem0 : Memory) (cfg : Config) : State :=
  State.atBoundary
    { pc := 0
      idex := .zero
      exmem := .zero
      memwb := .zero
      rf := rf0
      dmem := dmem0
      imem := Memory.ofWords 0 image
      imageWords := image.length
      status := .running
      cfg := cfg }

end Sys2Proof.Machine
end

