-- ==== Sys2Proof/Machine/Flags.lean ====
section
/-! DEFINITION. Flag computations: there are none. The machine has no flags, condition codes or predicate registers,
and no instruction writes a flag as a side effect (rule R34). This file holds the comparisons that stand in their
place: the signed less-than of SLT and SLTI (rules R87, R88) and the branch conditions (rule R75). -/

namespace Sys2Proof.Machine

/-- The second ALU input after the `negate` signal: `b'` of rule R87, with `neg(b) = (0 - b) mod 2^32` (rule R11). -/
def negated (negate : Bool) (b : Word) : Word := if negate then 0 - b else b

/-- `lt(a, b, negate)` of rule R87, as a condition. -/
def lessThan (mode : SltMode) (negate : Bool) (a b : Word) : Bool :=
  match mode with
  | .wrappedSign => (a + negated negate b).getLsbD 31
  | .exactSign => decide (a.toInt + (if negate then -b.toInt else b.toInt) < 0)

/-- The three kinds of next PC (rules R70, R75). -/
inductive NextPcKind where
  | sequential
  | branch
  | jump
  deriving DecidableEq, Repr

/-- The 2-bit codes of the Branch Resolver's output `kind` (rule R70). -/
def NextPcKind.code : NextPcKind → BitVec 2
  | .sequential => 0
  | .branch => 1
  | .jump => 2

/-- The Branch Resolver `next_pc_kind(f, rsVal, rtVal)` (rule R75). -/
def nextPcKind (f : Fields) (rsVal rtVal : Word) : NextPcKind :=
  if f.opcode = 2 then .jump
  else if f.opcode = 4 then (if rsVal = rtVal then .branch else .sequential)
  else if f.opcode = 5 then (if rsVal ≠ rtVal then .branch else .sequential)
  else .sequential

end Sys2Proof.Machine
end

