-- ==== Sys2Proof/Machine/Operands.lean ====
section
/-! DEFINITION. The operand forms: the destination of a latch (rule R41), the Forwarding Network (rules R84 to R86,
R94), the word a store writes (rule R96), and the branch and jump targets (rules R76, R77). -/

namespace Sys2Proof.Machine

/-- The destination of an ID/EX latch: `rt` for an immediate form, else `rd` (rules R41, R90). `regDst` is not
consulted. -/
def IdEx.dest (l : IdEx) : RegIdx := if l.aluSrc ≠ .reg then l.rt else l.rd

/-- What a MEM/WB latch forwards: its loaded value if its result comes from memory, else its ALU result (rules R85,
R96). For LUI that is the EX result and not the value written back (rule R93). -/
def MemWb.forwarded (l : MemWb) : Word := if l.memToReg then l.memResult else l.aluResult

/-- One resolver `fwd(r, regVal)`: the nearer latch first (rules R85, R94). Register 0 is compared like any other. -/
def forward (exmem : ExMem) (memwb : MemWb) (r : RegIdx) (regVal : Word) : Word :=
  if exmem.regWrite = true ∧ exmem.dest = r then exmem.aluResult
  else if memwb.regWrite = true ∧ memwb.dest = r then memwb.forwarded
  else regVal

/-- The first ALU input, always register-sourced (rule R86). -/
def aluInput1 (idex : IdEx) (exmem : ExMem) (memwb : MemWb) : Word := forward exmem memwb idex.rs idex.rsVal

/-- The second ALU input: the immediate of an immediate form, never forwarded, else the forwarded `rt` (rule R86). -/
def aluInput2 (idex : IdEx) (exmem : ExMem) (memwb : MemWb) : Word :=
  match idex.aluSrc with
  | .signExt => idex.imm32
  | .zeroExt => zext32 idex.imm16
  | .reg => forward exmem memwb idex.rt idex.rtVal

/-- `store_value(EXMEM, MEMWB)` (rule R96). -/
def storeValue (exmem : ExMem) (memwb : MemWb) : Word :=
  if memwb.regWrite = true ∧ memwb.dest = exmem.dest then memwb.forwarded else exmem.storeVal

/-- `branchTarget(pcPlus4, imm32)`, modulo 2^32 (rule R76). -/
def branchTarget (pcPlus4 imm32 : Word) : Word := pcPlus4 + (imm32 <<< 2)

/-- `jumpTarget(pcPlus4, address)` (rule R77). -/
def jumpTarget (pcPlus4 : Word) (address : BitVec 26) : Word :=
  (address.setWidth 32 <<< 2) ||| (pcPlus4 &&& 0xF0000000#32)

end Sys2Proof.Machine
end

