-- ==== Sys2Proof/Machine/Pipeline.lean ====
section
/-! DEFINITION. The sub-blocks of rule R2 that are shared by all instructions, each a function from its inputs to its
outputs (rules R14, R70), and the clock cycle that composes them (rules R60 to R64). -/

namespace Sys2Proof.Machine

/-! ### Hazard Detector -/

/-- `match1(r)` of rule R68: the one-ahead latch names `r` as destination and, under `write_gated`, writes it. -/
def match1 (cfg : Config) (idex : IdEx) (r : RegIdx) : Bool :=
  (match cfg.storeShadowMatch with
    | .writeGated => idex.regWrite
    | .destOnly => true) && (idex.dest == r)

/-- `match2(r)` of rule R68: the two-ahead latch writes `r`. -/
def match2 (exmem : ExMem) (r : RegIdx) : Bool := exmem.regWrite && (exmem.dest == r)

/-- The store hazard (rule R68), tested on opcode 43. -/
def storeHazard (cfg : Config) (f : Fields) (idex : IdEx) (exmem : ExMem) : Bool :=
  (f.opcode == 43) && !match1 cfg idex f.rt && match2 exmem f.rt

/-- The load-use hazard (rule R71). The classes are tested on the opcode number alone. -/
def loadUse (f : Fields) (idex : IdEx) : Bool :=
  idex.memRead &&
    ((f.opcode == 0 && (idex.dest == f.rs || idex.dest == f.rt))
      || ((f.opcode == 4 || f.opcode == 5) && idex.dest == f.rt)
      || (((decide (8 ≤ f.opcode.toNat) && decide (f.opcode.toNat ≤ 14)) || decide (32 ≤ f.opcode.toNat))
            && idex.dest == f.rs))

/-- `needs_stall(f, IDEX, EXMEM)` (rules R72, R73). -/
def needsStall (cfg : Config) (f : Fields) (idex : IdEx) (exmem : ExMem) : Bool :=
  storeHazard cfg f idex exmem || loadUse f idex

/-! ### Control/Decode Stage -/

/-- The ID/EX latch of an issued word: every decoded index, both register values, both immediates and the word's
control row (rule R78), or the zero latch for a branch, a jump or an unsupported word (rule R81). -/
def decodeLatch (f : Fields) (row : Option Control) (rsVal rtVal : Word) : IdEx :=
  match row with
  | none => .zero
  | some c =>
    { rs := f.rs, rt := f.rt, rd := f.rd, rsVal := rsVal, rtVal := rtVal, imm16 := f.imm16, imm32 := f.imm32,
      aluSrc := c.aluSrc, aluOp := c.aluOp, negate := c.negate, memRead := c.memRead, memWrite := c.memWrite,
      memToReg := c.memToReg, regDst := c.regDst, regWrite := c.regWrite, extra1 := c.extra1 }

/-- The outputs of the Control/Decode Stage (rule R70). -/
structure DecodeOutput where
  /-- Every field of the new ID/EX latch. -/
  idex : IdEx
  /-- False exactly on a stall (rule R82). -/
  issued : Bool
  /-- The word is refused, stalled or not (rule R83). -/
  refuse : Bool
  deriving DecidableEq, Repr

/-- `decode_stage` for a word whose dispatch has found the bundle `b`: a bubble on a stall (rules R78, R80 to R83).
No output depends on `pcPlus4`, which is in the source's signature only (rule R70, N16). -/
def decodeStageWith (cfg : Config) (b : Bundle) (stall : Bool) (f : Fields) (_pcPlus4 rsVal rtVal : Word) :
    DecodeOutput where
  idex := if stall then .zero else decodeLatch f (b.row cfg) rsVal rtVal
  issued := !stall
  refuse := b.refused cfg

/-- The Control/Decode Stage `decode_stage(stall, fields, pcPlus4, rsVal, rtVal)`, with the interface of rule R70: it
dispatches on `opcode` and `funct` itself. The meaning of a decoded instruction names its bundle and runs
`decodeStageWith` on it; `exec_eq_fieldsCycle` in Laws/Dispatch.lean proves the two are one cycle. -/
def decodeStage (cfg : Config) (stall : Bool) (f : Fields) (pcPlus4 rsVal rtVal : Word) : DecodeOutput :=
  decodeStageWith cfg (bundleOf f) stall f pcPlus4 rsVal rtVal

/-- The next PC (rule R69): held on a stall, else by the kind the Branch Resolver gives. -/
def nextPc (issued : Bool) (f : Fields) (pc rsVal rtVal : Word) : Word :=
  if issued then
    match nextPcKind f rsVal rtVal with
    | .jump => jumpTarget (pc + 4) f.address
    | .branch => branchTarget (pc + 4) f.imm32
    | .sequential => pc + 4
  else pc

/-! ### ALU and EX stage -/

/-- `alu(op, negate, a, b)` (rules R87, R88). -/
def alu (mode : SltMode) (op : AluOp) (negate : Bool) (a b : Word) : Word :=
  match op with
  | .nop => 0
  | .and => a &&& negated negate b
  | .or => a ||| negated negate b
  | .add => a + negated negate b
  | .slt => if lessThan mode negate a b then 1 else 0
  | .xor => a ^^^ negated negate b

/-- The EX stage's result: the ALU's, inverted for NOR, and the opaque `LUI_EX_RESULT` for LUI (rules R89, R93). -/
def exResult (mode : SltMode) (idex : IdEx) (in1 in2 : Word) : Word :=
  match idex.extra1 with
  | .none => alu mode idex.aluOp idex.negate in1 in2
  | .nor => ~~~(alu mode idex.aluOp idex.negate in1 in2)
  | .lui => Config.luiExResult in1 idex.imm16

/-- `execute(IDEX, in1, in2)` (rule R89). The store value is the one read at decode (rule R91). -/
def execute (mode : SltMode) (idex : IdEx) (in1 in2 : Word) : ExMem where
  aluResult := exResult mode idex in1 in2
  dest := idex.dest
  storeVal := idex.rtVal
  memRead := idex.memRead
  memWrite := idex.memWrite
  memToReg := idex.memToReg
  regWrite := idex.regWrite
  extra1 := idex.extra1
  imm16 := idex.imm16

/-! ### Memory Stage -/

/-- The MEM/WB latch of an EX/MEM latch and a memory result (rule R95). -/
def passToMemWb (exmem : ExMem) (memResult : Word) : MemWb where
  aluResult := exmem.aluResult
  memResult := memResult
  dest := exmem.dest
  memToReg := exmem.memToReg
  regWrite := exmem.regWrite
  extra1 := exmem.extra1
  imm16 := exmem.imm16

/-- `memory_stage(EXMEM, MEMWB, DMEM)` (rules R95 to R98); `memWrite` is tested first (D29). -/
def memoryStage (cfg : Config) (exmem : ExMem) (memwb : MemWb) (dmem : Memory) : Except Fault (MemWb × Memory) :=
  if exmem.memWrite then
    match memWrite cfg dmem exmem.aluResult (storeValue exmem memwb) with
    | .error e => .error e
    | .ok dmem' => .ok (passToMemWb exmem 0, dmem')
  else if exmem.memRead then
    match memRead cfg dmem exmem.aluResult with
    | .error e => .error e
    | .ok v => .ok (passToMemWb exmem v, dmem)
  else .ok (passToMemWb exmem 0, dmem)

/-! ### Write-Back Stage -/

/-- The value the Write-Back Stage writes: LUI's from the raw immediate, a load's from memory, else the ALU result
(rule R99). -/
def MemWb.written (l : MemWb) : Word :=
  match l.extra1 with
  | .lui => zext32 l.imm16 <<< 16
  | .none => if l.memToReg then l.memResult else l.aluResult
  | .nor => if l.memToReg then l.memResult else l.aluResult

/-- The register file after `writeback(MEMWB)` (rules R99, R100). -/
def writeBack (memwb : MemWb) (rf : RegFile) : RegFile :=
  if memwb.regWrite then rf.write memwb.dest memwb.written else rf

/-! ### The cycle -/

/-- The register file the FD position reads: after the same cycle's write-back under `RF_WRITE_BEFORE_READ`, else at
the start of the cycle (rules R60, R63, R66). -/
def State.readFile (s : State) : RegFile := if s.cfg.rfWriteBeforeRead then writeBack s.memwb s.rf else s.rf

/-- What the Control/Decode Stage puts out this cycle for a word of fields `f` and bundle `b` in the FD position
(rules R60, R66, R72). -/
def State.decodeOutput (s : State) (f : Fields) (b : Bundle) : DecodeOutput :=
  decodeStageWith s.cfg b (needsStall s.cfg f s.idex s.exmem) f (s.pc + 4) (s.readFile.read f.rs) (s.readFile.read f.rt)

/-- The state at the end of a cycle whose Memory Stage gave `m` (rule R60), with the end-of-run test applied
(rule R64). Every latch read is of the start-of-cycle state (rule R62). -/
def State.endOfCycle (s : State) (f : Fields) (b : Bundle) (m : MemWb × Memory) : State :=
  let out := s.decodeOutput f b
  State.atBoundary
    { s with
      pc := nextPc out.issued f s.pc (s.readFile.read f.rs) (s.readFile.read f.rt)
      idex := out.idex
      exmem := execute s.cfg.sltMode s.idex (aluInput1 s.idex s.exmem s.memwb) (aluInput2 s.idex s.exmem s.memwb)
      memwb := m.1
      rf := writeBack s.memwb s.rf
      dmem := m.2 }

/-- One cycle with a word of fields `f` and bundle `b` in the FD position (rules R60, R64). A fault of the Memory Stage
commits nothing and wins over the Control/Decode Stage's refusal, which commits nothing either (rules R83, R121,
R124). -/
def cycle (word : Word) (f : Fields) (b : Bundle) (s : State) : Host.Outcome State Fault Refusal :=
  match memoryStage s.cfg s.exmem s.memwb s.dmem with
  | .error e => .fault e
  | .ok m =>
    if (s.decodeOutput f b).refuse then .refused (.uncertainEncoding s.pc word)
    else .next (s.endOfCycle f b m)

/-- The cycle of a decoded instruction with bundle `b`. -/
def cycleOf (i : Instr) (b : Bundle) (s : State) : Host.Outcome State Fault Refusal := cycle (encode i) i.fields b s

end Sys2Proof.Machine
end

