-- ==== Sys2Proof/Machine/AluImmediate.lean ====
section
/-! DEFINITION. The meanings of the immediate ALU instructions and of load-upper-immediate (rules R112, R179 to R186):
each is the cycle in which the instruction is in the FD position, with its row of rule R79 -/

namespace Sys2Proof.Machine

/-- ADDI in the FD position (rule R180). -/
def execAddi (rs rt : RegIdx) (imm : Imm16) (s : State) : Host.Outcome State Fault Refusal :=
  cycleOf (Instr.addi rs rt imm) (.fills rowAddi) s

/-- SLTI in the FD position (rule R112). -/
def execSlti (rs rt : RegIdx) (imm : Imm16) (s : State) : Host.Outcome State Fault Refusal :=
  cycleOf (Instr.slti rs rt imm) (.fills rowSlti) s

/-- ANDI in the FD position (rule R181). -/
def execAndi (rs rt : RegIdx) (imm : Imm16) (s : State) : Host.Outcome State Fault Refusal :=
  cycleOf (Instr.andi rs rt imm) (.fills rowAndi) s

/-- ORI in the FD position (rule R182). -/
def execOri (rs rt : RegIdx) (imm : Imm16) (s : State) : Host.Outcome State Fault Refusal :=
  cycleOf (Instr.ori rs rt imm) (.fills rowOri) s

/-- XORI in the FD position (rule R183). -/
def execXori (rs rt : RegIdx) (imm : Imm16) (s : State) : Host.Outcome State Fault Refusal :=
  cycleOf (Instr.xori rs rt imm) (.fills rowXori) s

/-- LUI in the FD position (rule R184). -/
def execLui (rs rt : RegIdx) (imm : Imm16) (s : State) : Host.Outcome State Fault Refusal :=
  cycleOf (Instr.lui rs rt imm) (.fills rowLui) s

/-- ADDIU in the FD position (rule R185): an uncertain encoding whose twin is ADDI. -/
def execAddiu (rs rt : RegIdx) (imm : Imm16) (s : State) : Host.Outcome State Fault Refusal :=
  cycleOf (Instr.addiu rs rt imm) (.uncertain rowAddi) s

/-- SLTIU in the FD position (rule R186): an uncertain encoding whose twin is SLTI. -/
def execSltiu (rs rt : RegIdx) (imm : Imm16) (s : State) : Host.Outcome State Fault Refusal :=
  cycleOf (Instr.sltiu rs rt imm) (.uncertain rowSlti) s

end Sys2Proof.Machine
end

