-- ==== Sys2Proof/Machine/AluRegister.lean ====
section
/-! DEFINITION. The meanings of the register-register ALU instructions (rules R101 to R111): each is the cycle in which
the instruction is in the FD position, with its row of rule R79. What it does in EX, MEM and WB is done by the three
cycles that follow, from the latch it fills here -/

namespace Sys2Proof.Machine

/-- ADD in the FD position (rule R102). -/
def execAdd (rs rt rd : RegIdx) (shamt : BitVec 5) (s : State) : Host.Outcome State Fault Refusal :=
  cycleOf (Instr.add rs rt rd shamt) (.fills rowAdd) s

/-- SUB in the FD position (rule R103). -/
def execSub (rs rt rd : RegIdx) (shamt : BitVec 5) (s : State) : Host.Outcome State Fault Refusal :=
  cycleOf (Instr.sub rs rt rd shamt) (.fills rowSub) s

/-- AND in the FD position (rule R104). -/
def execAnd (rs rt rd : RegIdx) (shamt : BitVec 5) (s : State) : Host.Outcome State Fault Refusal :=
  cycleOf (Instr.and rs rt rd shamt) (.fills rowAnd) s

/-- OR in the FD position (rule R105). -/
def execOr (rs rt rd : RegIdx) (shamt : BitVec 5) (s : State) : Host.Outcome State Fault Refusal :=
  cycleOf (Instr.or rs rt rd shamt) (.fills rowOr) s

/-- XOR in the FD position (rule R106). -/
def execXor (rs rt rd : RegIdx) (shamt : BitVec 5) (s : State) : Host.Outcome State Fault Refusal :=
  cycleOf (Instr.xor rs rt rd shamt) (.fills rowXor) s

/-- NOR in the FD position (rule R107). -/
def execNor (rs rt rd : RegIdx) (shamt : BitVec 5) (s : State) : Host.Outcome State Fault Refusal :=
  cycleOf (Instr.nor rs rt rd shamt) (.fills rowNor) s

/-- SLT in the FD position (rule R108). -/
def execSlt (rs rt rd : RegIdx) (shamt : BitVec 5) (s : State) : Host.Outcome State Fault Refusal :=
  cycleOf (Instr.slt rs rt rd shamt) (.fills rowSlt) s

/-- ADDU in the FD position (rule R109): an uncertain encoding whose twin is ADD. -/
def execAddu (rs rt rd : RegIdx) (shamt : BitVec 5) (s : State) : Host.Outcome State Fault Refusal :=
  cycleOf (Instr.addu rs rt rd shamt) (.uncertain rowAdd) s

/-- SUBU in the FD position (rule R110): an uncertain encoding whose twin is SUB. -/
def execSubu (rs rt rd : RegIdx) (shamt : BitVec 5) (s : State) : Host.Outcome State Fault Refusal :=
  cycleOf (Instr.subu rs rt rd shamt) (.uncertain rowSub) s

/-- SLTU in the FD position (rule R111): an uncertain encoding whose twin is SLT. -/
def execSltu (rs rt rd : RegIdx) (shamt : BitVec 5) (s : State) : Host.Outcome State Fault Refusal :=
  cycleOf (Instr.sltu rs rt rd shamt) (.uncertain rowSlt) s

end Sys2Proof.Machine
end

