-- ==== Sys2Proof/Machine/ControlTransfer.lean ====
section
/-! DEFINITION. The meanings of BEQ, BNE and J (rules R150 to R153): each completes in its FD cycle, where the Branch
Resolver sets the next PC (rules R69, R75), and leaves the zero latch (rule R81) -/

namespace Sys2Proof.Machine

/-- BEQ in the FD position (rule R150). -/
def execBeq (rs rt : RegIdx) (imm : Imm16) (s : State) : Host.Outcome State Fault Refusal :=
  cycleOf (Instr.beq rs rt imm) .clears s

/-- BNE in the FD position (rule R151). -/
def execBne (rs rt : RegIdx) (imm : Imm16) (s : State) : Host.Outcome State Fault Refusal :=
  cycleOf (Instr.bne rs rt imm) .clears s

/-- J in the FD position (rule R152). -/
def execJ (address : BitVec 26) (s : State) : Host.Outcome State Fault Refusal :=
  cycleOf (Instr.j address) .clears s

end Sys2Proof.Machine
end

