-- ==== Sys2Proof/Machine/LoadStore.lean ====
section
/-! DEFINITION. The meanings of LW and SW (rules R140, R141): each is the cycle in which the instruction is in the FD
position, with its row of rule R79. The access itself, and its fault, come two cycles later in the MEM position
(rules R95, R120) -/

namespace Sys2Proof.Machine

/-- LW in the FD position (rule R140). -/
def execLw (rs rt : RegIdx) (imm : Imm16) (s : State) : Host.Outcome State Fault Refusal :=
  cycleOf (Instr.lw rs rt imm) (.fills rowLw) s

/-- SW in the FD position (rule R141). -/
def execSw (rs rt : RegIdx) (imm : Imm16) (s : State) : Host.Outcome State Fault Refusal :=
  cycleOf (Instr.sw rs rt imm) (.fills rowSw) s

end Sys2Proof.Machine
end

