-- ==== Sys2Proof/Machine/Unsupported.lean ====
section
/-! DEFINITION. The meaning of an unsupported word (rules R115, R116, R118): a no-op that leaves the zero latch and
advances the PC by 4, after the stall cycles its opcode number calls for (rule R71) -/

namespace Sys2Proof.Machine

/-- An unsupported word in the FD position (rule R115). -/
def execUnsupported (word : Word) (s : State) : Host.Outcome State Fault Refusal :=
  cycleOf (Instr.unsupported word) .clears s

end Sys2Proof.Machine
end

