-- ==== Sys2Proof/Machine/Step.lean ====
section
/-! DEFINITION. One step (rules R43, R60): a running state takes the cycle of the instruction in its FD position; an
ended run takes no further cycle, so its state stays as it is (log entry 10). -/

namespace Sys2Proof.Machine

/-- One clock cycle. -/
def step (s : State) : Host.Outcome State Fault Refusal :=
  match s.status with
  | .ended => .next s
  | .running => exec (decode s.fetchWord) s

/-- Place an instruction, numbered as the opcode table numbers it, where the next step fetches (log entry 7): its word
in the image at the PC, the image long enough to hold it, and the run not ended. The PC's two low bits, which are zero
in every state of a run (rule R33), are cleared because `Fetch` reads no image word at an unaligned PC (rule R30). -/
def State.withFetchWord (s : State) (nbits w : Nat) : State :=
  { s with
    pc := s.pc &&& 0xFFFFFFFC#32
    imem := s.imem.writeWord (4 * wordIndex s.pc) (tableWord nbits w)
    imageWords := max s.imageWords (wordIndex s.pc + 1)
    status := .running }

end Sys2Proof.Machine
end

