-- ==== Sys2Proof/Machine/Run.lean ====
section
/-! DEFINITION. The host's part of a run (rule R132): it launches the core once, lets it take its cycles, and at the
first `Ended`, `Faulted` or `Refused` status stops with the final state, the status and the number of cycles taken. -/

namespace Sys2Proof.Machine

/-- The statuses of rule R43 that end a run (rule R132). -/
inductive EndStatus where
  /-- `Ended` (rule R133). -/
  | ended
  /-- `Faulted(MemFault info)` (rule R120). -/
  | faulted (info : Fault)
  /-- `Refused(UncertainEncoding info)` (rule R121). -/
  | refused (info : Refusal)
  deriving DecidableEq, Repr

/-- What the host gets of a run that it lets take a bounded number of cycles. -/
inductive RunOutcome where
  /-- The run stopped: the final state, the status, and the number of cycles taken (rule R132). -/
  | stopped (final : State) (status : EndStatus) (cycles : Nat)
  /-- The run is still `Running` when the bound is used up. This is never an end of run (rule R145, D38). -/
  | outOfCycles (reached : State)
  deriving DecidableEq, Repr

/-- Go on with a run that has taken `taken` cycles, for at most `bound` more. A cycle that faults or is refused commits
nothing and is not counted, and the final state is the one at its start (rules R64, R120, R121). -/
def runFrom (bound taken : Nat) (s : State) : RunOutcome :=
  match s.status with
  | .ended => .stopped s .ended taken
  | .running =>
    match step s with
    | .fault e => .stopped s (.faulted e) taken
    | .refused e => .stopped s (.refused e) taken
    | .next t =>
      match bound with
      | 0 => .outOfCycles s
      | n + 1 => runFrom n (taken + 1) t

/-- The host's run of a launched core, for at most `bound` cycles (rule R132). -/
def hostRun (bound : Nat) (image : List Word) (rf0 : RegFile) (dmem0 : Memory) (cfg : Config) : RunOutcome :=
  runFrom bound 0 (State.launch image rf0 dmem0 cfg)

end Sys2Proof.Machine
end

