-- ==== Sys2Proof/Safety.lean ====
section
/-! DEFINITION. The terms in which the claims speak: when a cycle can complete, what an instruction does on its way
through an otherwise idle pipeline, and the invariants of the machine. -/

namespace Sys2Proof.Machine

/-! ### When a cycle completes -/

/-- The access in the MEM position, if there is one, is defined (rules R50, R51, R120). -/
def State.accessDefined (s : State) : Bool :=
  !(s.exmem.memRead || s.exmem.memWrite) || accessOk s.cfg s.exmem.aluResult

/-- One of the uncertain encodings of rule R167. -/
def uncertain : Instr → Bool
  | .addu .. => true
  | .subu .. => true
  | .sltu .. => true
  | .addiu .. => true
  | .sltiu .. => true
  | .add .. => false
  | .sub .. => false
  | .and .. => false
  | .or .. => false
  | .xor .. => false
  | .nor .. => false
  | .slt .. => false
  | .j .. => false
  | .beq .. => false
  | .bne .. => false
  | .addi .. => false
  | .slti .. => false
  | .andi .. => false
  | .ori .. => false
  | .xori .. => false
  | .lui .. => false
  | .lw .. => false
  | .sw .. => false
  | .unsupported .. => false

/-- The Control/Decode Stage refuses the instruction under this configuration (rules R83, R121). -/
def refuses (cfg : Config) (i : Instr) : Bool := uncertain i && cfg.uncertainOps == .refuse

/-- The instruction, in the FD position, stalls this cycle (rule R72). -/
def stalls (i : Instr) (s : State) : Bool := needsStall s.cfg i.fields s.idex s.exmem

/-! ### Through the pipeline -/

/-- The no-op word of rule R115. -/
def noOp : Instr := .unsupported 0

/-- Go on from a next state. -/
def andThen (o : Host.Outcome State Fault Refusal) (k : State → Host.Outcome State Fault Refusal) :
    Host.Outcome State Fault Refusal :=
  match o with
  | .next s => k s
  | .fault e => .fault e
  | .refused e => .refused e

/-- The four cycles an instruction spends in the pipeline (rule R61), with no-ops behind it. -/
def throughPipeline (i : Instr) (s : State) : Host.Outcome State Fault Refusal :=
  andThen (andThen (andThen (exec i s) (exec noOp)) (exec noOp)) (exec noOp)

/-! ### Invariants -/

/-- The control fields of an ID/EX latch. -/
def IdEx.control (l : IdEx) : Control where
  aluSrc := l.aluSrc
  aluOp := l.aluOp
  negate := l.negate
  memRead := l.memRead
  memWrite := l.memWrite
  memToReg := l.memToReg
  regDst := l.regDst
  regWrite := l.regWrite
  extra1 := l.extra1

/-- Every row of the control truth table (rule R79). -/
def controlRows : List Control :=
  [rowAdd, rowSub, rowAnd, rowOr, rowXor, rowNor, rowSlt, rowAddi, rowSlti, rowAndi, rowOri, rowXori, rowLui, rowLw, rowSw]

/-- An ID/EX latch the Control/Decode Stage can produce: the bubble, or a row of rule R79 with both forms of one
immediate (rules R36, R78). -/
abbrev IdEx.Legal (l : IdEx) : Prop :=
  l = IdEx.zero ∨ (l.control ∈ controlRows ∧ l.imm32 = sext32 l.imm16)

/-- An EX/MEM latch made from such a latch: never both a load and a store (rule R95), a load writes its register from
memory, a store writes none, and LUI writes without touching memory (rule R79). -/
abbrev ExMem.Legal (l : ExMem) : Prop :=
  ¬(l.memRead = true ∧ l.memWrite = true) ∧ l.memToReg = l.memRead ∧ (l.memRead = true → l.regWrite = true) ∧
    (l.memWrite = true → l.regWrite = false) ∧
    (l.extra1 = .lui → l.memRead = false ∧ l.memWrite = false ∧ l.regWrite = true)

/-- A MEM/WB latch made from such a latch: only a load has a memory result (rule R38), and the three result sources
of rule R99 exclude each other. -/
abbrev MemWb.Legal (l : MemWb) : Prop :=
  (l.memToReg = false → l.memResult = 0) ∧ (l.memToReg = true → l.regWrite = true ∧ l.extra1 ≠ .lui)

/-- What every state of a run satisfies. -/
structure State.Inv (s : State) : Prop where
  /-- `pc[1:0] = 0` at every cycle boundary (rule R33). -/
  pcAligned : aligned s.pc = true
  /-- The data memory is in canonical form and holds nothing outside `0 .. 4*DMEM_WORDS-1` (rule R55). -/
  dmemWf : s.dmem.wf
  dmemInside : ∀ c ∈ s.dmem, c.1 < 4 * s.cfg.dmemWords
  /-- The instruction memory is in canonical form and holds nothing outside `0 .. 4N-1` (rule R55). -/
  imemWf : s.imem.wf
  imemInside : ∀ c ∈ s.imem, c.1 < 4 * s.imageWords
  /-- The latches are ones the stages produce. -/
  idexLegal : s.idex.Legal
  exmemLegal : s.exmem.Legal
  memwbLegal : s.memwb.Legal
  /-- The status is `Ended` exactly where the end-of-run test holds (rule R133). -/
  statusCurrent : s.status = .ended ↔ (s.pastImage = true ∧ s.idle = true)

/-- What the stalls and the register file's write-before-read guarantee the latches (rule R134), under
`RF_WRITE_BEFORE_READ = true` and `STORE_SHADOW_MATCH = write_gated`. -/
structure State.HazardInv (s : State) : Prop where
  /-- The register values in ID/EX are the register file's. -/
  operandsCurrent : s.idex.regWrite = true ∨ s.idex.memWrite = true →
    s.idex.rsVal = s.rf.read s.idex.rs ∧ s.idex.rtVal = s.rf.read s.idex.rt
  /-- No consumer meets the load it depends on in EX/MEM, but for LUI (rule R85). -/
  noLoadAhead : s.exmem.memRead = true → (s.idex.regWrite = true ∨ s.idex.memWrite = true) → s.idex.extra1 ≠ .lui →
    s.exmem.dest ≠ s.idex.rs ∧ (s.idex.aluSrc = .reg → s.exmem.dest ≠ s.idex.rt)
  /-- A store's destination field is the register it stores (rule R96). -/
  storeDest : s.idex.memWrite = true → s.idex.dest = s.idex.rt
  /-- A store behind a writer of its register two ahead has a writer one ahead (rule R68). -/
  storeCovered : s.idex.memWrite = true → s.memwb.regWrite = true → s.memwb.dest = s.idex.rt →
    s.exmem.regWrite = true ∧ s.exmem.dest = s.idex.rt
  /-- A store value no writer is left for is the register file's. -/
  storeValueCurrent : s.exmem.memWrite = true → ¬(s.memwb.regWrite = true ∧ s.memwb.dest = s.exmem.dest) →
    s.exmem.storeVal = s.rf.read s.exmem.dest

end Sys2Proof.Machine
end

