-- ==== Sys2Proof/Certificates/Slice0/Obligations.lean ====
section
/-! DEFINITION. The statements for the provers. The helper definitions first say, in the spec's own terms (numbers,
conditions on fields), what the statements below compare the machine with; none of them calls a sub-block of the
model where the rule itself gives a formula. -/

open Sys2Proof Sys2Proof.Machine

namespace Sys2Proof.Claims

/-- The opcode map of rules R165 and R167, the catch-all of rule R168 for every other pair. -/
def opcodeMap (opcode funct : Nat) : String :=
  if opcode = 0 then
    if funct = 32 then "ADD" else if funct = 34 then "SUB" else if funct = 36 then "AND" else if funct = 37 then "OR"
    else if funct = 38 then "XOR" else if funct = 39 then "NOR" else if funct = 42 then "SLT"
    else if funct = 33 then "ADDU" else if funct = 35 then "SUBU" else if funct = 43 then "SLTU"
    else "(unsupported)"
  else if opcode = 2 then "J" else if opcode = 4 then "BEQ" else if opcode = 5 then "BNE"
  else if opcode = 8 then "ADDI" else if opcode = 10 then "SLTI" else if opcode = 12 then "ANDI"
  else if opcode = 13 then "ORI" else if opcode = 14 then "XORI" else if opcode = 15 then "LUI"
  else if opcode = 35 then "LW" else if opcode = 43 then "SW" else if opcode = 9 then "ADDIU"
  else if opcode = 11 then "SLTIU" else "(unsupported)"

/-- The access in the MEM position, if there is one, is misaligned or out of range (rule R120). -/
def badAccess (s : State) : Prop :=
  (s.exmem.memRead = true ∨ s.exmem.memWrite = true) ∧
    (s.exmem.aluResult.toNat % 4 ≠ 0 ∨ s.cfg.dmemWords ≤ s.exmem.aluResult.toNat / 4)

/-- The destination of the latch in EX (rule R41). -/
def destIdEx (l : IdEx) : RegIdx := if l.aluSrc = .reg then l.rd else l.rt

/-- The store hazard of rule R68. -/
def storeRuleStalls (f : Fields) (s : State) : Prop :=
  f.opcode.toNat = 43 ∧
    ¬((s.cfg.storeShadowMatch = .writeGated → s.idex.regWrite = true) ∧ destIdEx s.idex = f.rt) ∧
    (s.exmem.regWrite = true ∧ s.exmem.dest = f.rt)

/-- The load-use hazard of rule R71. -/
def loadRuleStalls (f : Fields) (s : State) : Prop :=
  s.idex.memRead = true ∧
    ((f.opcode.toNat = 0 ∧ (destIdEx s.idex = f.rs ∨ destIdEx s.idex = f.rt)) ∨
      ((f.opcode.toNat = 4 ∨ f.opcode.toNat = 5) ∧ destIdEx s.idex = f.rt) ∨
      (((8 ≤ f.opcode.toNat ∧ f.opcode.toNat ≤ 14) ∨ 32 ≤ f.opcode.toNat) ∧ destIdEx s.idex = f.rs))

/-- The register value the FD position reads (rules R63, R66, R99). -/
def fdRead (s : State) (r : RegIdx) : Word :=
  if s.cfg.rfWriteBeforeRead = true ∧ s.memwb.regWrite = true ∧ s.memwb.dest = r then
    if s.memwb.extra1 = .lui then BitVec.ofNat 32 (s.memwb.imm16.toNat * 65536)
    else if s.memwb.memToReg = true then s.memwb.memResult else s.memwb.aluResult
  else s.rf.read r

/-- The next PC of an issued word (rules R69, R75 to R77), the target sums as numbers modulo 2^32. -/
def issuedPc (f : Fields) (s : State) : Word :=
  if f.opcode.toNat = 2 then
    BitVec.ofNat 32 (f.address.toNat * 4 + ((s.pc.toNat + 4) % 2 ^ 32) / 2 ^ 28 * 2 ^ 28)
  else if (f.opcode.toNat = 4 ∧ fdRead s f.rs = fdRead s f.rt) ∨
      (f.opcode.toNat = 5 ∧ fdRead s f.rs ≠ fdRead s f.rt) then
    BitVec.ofInt 32 (s.pc.toNat + 4 + 4 * f.imm16.toInt)
  else BitVec.ofNat 32 (s.pc.toNat + 4)

/-- Wherever the access in the MEM position is defined and the instruction neither stalls nor is refused, its cycle
completes: the PC advances by 4 and ID/EX captures the word's indices, the register values the FD position reads, both
forms of the immediate and the control tuple `c` (rules R69, R78, R79). -/
def IssuesWith (i : Instr) (rs rt rd : RegIdx) (imm : Imm16) (c : Control) (s : State) : Prop :=
  ∃ t, exec i s = .next t ∧ t.pc = s.pc + 4 ∧
    t.idex = { rs := rs, rt := rt, rd := rd, rsVal := fdRead s rs, rtVal := fdRead s rt, imm16 := imm,
               imm32 := BitVec.ofInt 32 imm.toInt, aluSrc := c.aluSrc, aluOp := c.aluOp, negate := c.negate,
               memRead := c.memRead, memWrite := c.memWrite, memToReg := c.memToReg, regDst := c.regDst,
               regWrite := c.regWrite, extra1 := c.extra1 }

/-- A control tuple, its nine values in the column order of rule R79. -/
def tuple (aluSrc : AluSrc) (aluOp : AluOp) (negate memRead memWrite memToReg regDst regWrite : Bool)
    (extra1 : Extra1) : Control :=
  { aluSrc := aluSrc, aluOp := aluOp, negate := negate, memRead := memRead, memWrite := memWrite,
    memToReg := memToReg, regDst := regDst, regWrite := regWrite, extra1 := extra1 }

/-- From `s`, the instruction passes through the pipeline and the one thing its passage changes in the register file
is that register `d` holds `v`; data memory, instruction memory and parameters are as before, and the pipeline is idle
again. -/
def WritesOnly (i : Instr) (d : RegIdx) (v : Word) (s : State) : Prop :=
  ∃ t, throughPipeline i s = .next t ∧ (∀ r, t.rf.read r = if r = d then v else s.rf.read r) ∧
    (∀ a, t.dmem.readByte a = s.dmem.readByte a) ∧
    t.imem = s.imem ∧ t.imageWords = s.imageWords ∧ t.cfg = s.cfg ∧ t.idle = true

/-- From `s`, the instruction passes through the pipeline and changes no register and no memory. -/
def WritesNothing (i : Instr) (s : State) : Prop :=
  ∃ t, throughPipeline i s = .next t ∧ (∀ r, t.rf.read r = s.rf.read r) ∧
    (∀ a, t.dmem.readByte a = s.dmem.readByte a) ∧
    t.imem = s.imem ∧ t.imageWords = s.imageWords ∧ t.cfg = s.cfg ∧ t.idle = true

/-- The signed less-than of rule R87 with `negate = 1`, as a number. -/
def sltValue (mode : SltMode) (a b : Word) : Word :=
  match mode with
  | .wrappedSign => if 2 ^ 31 ≤ (a.toNat + 2 ^ 32 - b.toNat) % 2 ^ 32 then 1 else 0
  | .exactSign => if a.toInt < b.toInt then 1 else 0

/-- The effective address of LW and SW with no instruction in flight (rules R98, R140, R141). -/
def effectiveAddress (s : State) (rs : RegIdx) (imm : Imm16) : Word :=
  BitVec.ofInt 32 ((s.rf.read rs).toNat + imm.toInt)

/-- `n` cycles lead from one state to the other, each taken by a running state and completed (rules R43, R60). -/
def Cycles : Nat → State → State → Prop
  | 0, s, t => t = s
  | n + 1, s, t => s.status = .running ∧ ∃ u, step s = .next u ∧ Cycles n u t

/-- The run ends at `t` with this status: the end-of-run test has held there, or its next cycle faults or is refused
and commits nothing (rules R64, R120, R121, R132, R133). -/
def EndsWith (t : State) : EndStatus → Prop
  | .ended => t.status = .ended
  | .faulted e => t.status = .running ∧ step t = .fault e
  | .refused e => t.status = .running ∧ step t = .refused e

end Sys2Proof.Claims

open Sys2Proof.Claims

/-! ### Decoding -/

/-- Words of the spec, one or more per family, decode to what they stand for (rules R102 to R112, R140, R141, R150 to
R152, R180 to R186, R115 and vectors V29 to V33). -/
def Obligations.SpecWordsDecode : Prop :=
  decode 0x00221820 = .add 1 2 3 0 ∧ decode 0x00221822 = .sub 1 2 3 0 ∧ decode 0x00221824 = .and 1 2 3 0 ∧
  decode 0x00221825 = .or 1 2 3 0 ∧ decode 0x00221826 = .xor 1 2 3 0 ∧ decode 0x00221827 = .nor 1 2 3 0 ∧
  decode 0x0022182A = .slt 1 2 3 0 ∧ decode 0x002207E0 = .add 1 2 0 31 ∧
  decode 0x2022FFFF = .addi 1 2 0xFFFF ∧ decode 0x28228000 = .slti 1 2 0x8000 ∧
  decode 0x3C021234 = .lui 0 2 0x1234 ∧ decode 0x8C430000 = .lw 2 3 0 ∧ decode 0xAC030004 = .sw 0 3 4 ∧
  decode 0x10220002 = .beq 1 2 2 ∧ decode 0x1422FFFF = .bne 1 2 0xFFFF ∧ decode 0x083FFFFF = .j 0x03FFFFF ∧
  decode 0x00221821 = .addu 1 2 3 0 ∧ decode 0x24220005 = .addiu 1 2 5 ∧
  decode 0x0000000C = .unsupported 0x0000000C ∧ decode 0x00221828 = .unsupported 0x00221828 ∧
  decode 0 = .unsupported 0

/-- Rule R160: the fields are the word's bits at the rule's positions, for every word, and the instruction decoded has
exactly these fields. -/
def Obligations.FieldsAreTheWordsBits : Prop :=
  ∀ w : Word,
    (sliceWord w).opcode.toNat = w.toNat / 2 ^ 26 ∧ (sliceWord w).rs.toNat = w.toNat / 2 ^ 21 % 32 ∧
    (sliceWord w).rt.toNat = w.toNat / 2 ^ 16 % 32 ∧ (sliceWord w).rd.toNat = w.toNat / 2 ^ 11 % 32 ∧
    (sliceWord w).shamt.toNat = w.toNat / 2 ^ 6 % 32 ∧ (sliceWord w).funct.toNat = w.toNat % 64 ∧
    (sliceWord w).imm16.toNat = w.toNat % 2 ^ 16 ∧ (sliceWord w).imm32.toInt = (sliceWord w).imm16.toInt ∧
    (sliceWord w).address.toNat = w.toNat % 2 ^ 26 ∧ (decode w).fields = sliceWord w

/-- An instruction is the four bytes of one word and fewer bytes are none; which byte lies lowest is the model's
choice (rules R160, R52, R170; log entry 3). -/
def Obligations.AnInstructionIsFourBytes : Prop :=
  (∀ (w : Word) (rest : List Byte), decodeBytes (bytesOfWord w ++ rest) = .ok (decode w, rest)) ∧
  (∀ bytes : List Byte, bytes.length < 4 → decodeBytes bytes = .error .truncated)

/-- Decoding an encoded well-formed instruction gives it back, every operand at every value (rules R161 to R168). -/
def Obligations.DecodeOfEncode : Prop := ∀ i : Instr, i.wellFormed = true → decode (encode i) = i

/-- Every word is the encoding of the one well-formed instruction it decodes to (rule R169). -/
def Obligations.EveryWordEncodesItsInstruction : Prop :=
  ∀ w : Word, (decode w).wellFormed = true ∧ encode (decode w) = w

/-- The opcode map: a word's mnemonic is given by its opcode, and its funct when the opcode is 0 (rules R165 to
R168). -/
def Obligations.OpcodeMapGivesTheMnemonic : Prop :=
  ∀ w : Word, (decode w).mnemonic = opcodeMap (w.toNat / 2 ^ 26) (w.toNat % 64)

/-! ### Reset, launch and the step -/

/-- The table of rule R45 with rule R130's status, for every launch input: `pc` 0, every latch field 0 by the codes of
rule R36, `RF0`, `DMEM0`, the parameters, the image where rule R30's `Fetch` finds it, and `Ended` only for the empty
image. -/
def Obligations.LaunchGivesTheResetTable : Prop :=
  ∀ (image : List Word) (rf0 : RegFile) (dmem0 : Memory) (cfg : Config),
    let s := State.launch image rf0 dmem0 cfg
    s.pc = 0 ∧
    (s.idex.rs = 0 ∧ s.idex.rt = 0 ∧ s.idex.rd = 0 ∧ s.idex.rsVal = 0 ∧ s.idex.rtVal = 0 ∧ s.idex.imm16 = 0 ∧
      s.idex.imm32 = 0 ∧ s.idex.aluSrc.code = 0 ∧ s.idex.aluOp.code = 0 ∧ s.idex.negate = false ∧
      s.idex.memRead = false ∧ s.idex.memWrite = false ∧ s.idex.memToReg = false ∧ s.idex.regDst = false ∧
      s.idex.regWrite = false ∧ s.idex.extra1.code = 0) ∧
    (s.exmem.aluResult = 0 ∧ s.exmem.dest = 0 ∧ s.exmem.storeVal = 0 ∧ s.exmem.memRead = false ∧
      s.exmem.memWrite = false ∧ s.exmem.memToReg = false ∧ s.exmem.regWrite = false ∧ s.exmem.extra1.code = 0 ∧
      s.exmem.imm16 = 0) ∧
    (s.memwb.aluResult = 0 ∧ s.memwb.memResult = 0 ∧ s.memwb.dest = 0 ∧ s.memwb.memToReg = false ∧
      s.memwb.regWrite = false ∧ s.memwb.extra1.code = 0 ∧ s.memwb.imm16 = 0) ∧
    s.rf = rf0 ∧ s.dmem = dmem0 ∧ s.cfg = cfg ∧ s.imageWords = image.length ∧
    (∀ pc : Word, fetch s.imem s.imageWords pc =
      if pc.toNat % 4 = 0 then image.getD (pc.toNat / 4) 0 else 0) ∧
    (s.status = .ended ↔ image = [])

/-- The model's own reset state meets both invariants, and its parameters are the defaults of rule R8; the register
file, the data memory, the image and `DMEM_WORDS` in it are the model's choices (log entries 4 to 8). -/
def Obligations.ResetMeetsTheInvariants : Prop :=
  State.reset.Inv ∧ State.reset.HazardInv ∧ State.reset.cfg.Valid ∧
  State.reset.cfg.uncertainOps = .refuse ∧ State.reset.cfg.storeShadowMatch = .writeGated ∧
  State.reset.cfg.sltMode = .wrappedSign ∧ State.reset.cfg.rfWriteBeforeRead = true

/-- Every launch with a data memory in canonical form and inside its bounds meets both invariants. -/
def Obligations.LaunchMeetsTheInvariants : Prop :=
  ∀ (image : List Word) (rf0 : RegFile) (dmem0 : Memory) (cfg : Config), dmem0.wf →
    (∀ c ∈ dmem0, c.1 < 4 * cfg.dmemWords) →
    (State.launch image rf0 dmem0 cfg).Inv ∧ (State.launch image rf0 dmem0 cfg).HazardInv

/-- A step runs the decoded instruction: in a running state whose FD word is that of a well-formed instruction, the
step is that instruction's cycle, nothing around it; an ended run stays as it is (rules R43, R60, R65, R67). -/
def Obligations.StepRunsTheFetchedInstruction : Prop :=
  ∀ s : State,
    (∀ i : Instr, s.status = .running → i.wellFormed = true → s.fetchWord = encode i → step s = exec i s) ∧
    (s.status = .ended → step s = .next s)

/-- An instruction placed by `withFetchWord` is the one the next step runs (rules R30, R65). -/
def Obligations.PlacedInstructionRunsNext : Prop :=
  ∀ (s : State) (w : Word), s.imem.wf →
    step (s.withFetchWord 32 w.toNat) = exec (decode w) (s.withFetchWord 32 w.toNat)

/-! ### Invariants -/

/-- Every step keeps the invariant (rules R33, R36, R55, R79, R95, R99, R133). -/
def Obligations.StepKeepsTheInvariant : Prop :=
  ∀ s t : State, s.Inv → step s = .next t → t.Inv

/-- Under the defaults for the register-file order and the store hazard, every step keeps what the stalls guarantee
(rules R63, R66, R68, R71, R134). -/
def Obligations.StepKeepsTheHazardInvariant : Prop :=
  ∀ s t : State, s.cfg.rfWriteBeforeRead = true → s.cfg.storeShadowMatch = .writeGated →
    s.HazardInv → step s = .next t → t.HazardInv

/-- No step changes the instruction memory, the image's length or a parameter, so every fetch address holds the word
it held (rules R30, R43, R59). -/
def Obligations.LaunchInputsAreFixedForTheRun : Prop :=
  ∀ s t : State, step s = .next t →
    t.imem = s.imem ∧ t.imageWords = s.imageWords ∧ t.cfg = s.cfg ∧
    ∀ pc, fetch t.imem t.imageWords pc = fetch s.imem s.imageWords pc

/-! ### What every cycle does -/

/-- The outcome of every cycle, for every instruction and state: the fault of a misaligned or out-of-range access in
the MEM position; else the refusal of an uncertain encoding under `refuse`, stalled or not; else a next state (rules
R64, R117, R120, R121, R124). -/
def Obligations.OutcomeOfEveryCycle : Prop :=
  ∀ (i : Instr) (s : State),
    (badAccess s → exec i s = .fault (.memFault (if s.exmem.memWrite then .store else .load) s.exmem.aluResult)) ∧
    (¬badAccess s → uncertain i = true → s.cfg.uncertainOps = .refuse →
      exec i s = .refused (.uncertainEncoding s.pc (encode i))) ∧
    (¬badAccess s → (uncertain i = true → s.cfg.uncertainOps ≠ .refuse) → ∃ t, exec i s = .next t)

/-- Rule R99 for every instruction and every register: a cycle writes at most the destination of MEM/WB, with the
value selected by tag, register 0 like any other, and leaves every other register. -/
def Obligations.WriteBackIsTheOnlyRegisterWrite : Prop :=
  ∀ (i : Instr) (s t : State), exec i s = .next t → ∀ r : RegIdx,
    t.rf.read r =
      if s.memwb.regWrite = true ∧ s.memwb.dest = r then
        if s.memwb.extra1 = .lui then BitVec.ofNat 32 (s.memwb.imm16.toNat * 65536)
        else if s.memwb.memToReg = true then s.memwb.memResult else s.memwb.aluResult
      else s.rf.read r

/-- Rule R96 (decision D40) and the frame of data memory, for every instruction: a cycle with a store in the MEM
position puts the store value into the word at its address and leaves every byte outside it; a cycle without one
leaves every byte. -/
def Obligations.DataMemoryChangesOnlyByTheStoreInMem : Prop :=
  ∀ (i : Instr) (s t : State), s.dmem.wf → exec i s = .next t →
    t.dmem.wf ∧
    (s.exmem.memWrite = true →
      t.dmem.readWord (4 * wordIndex s.exmem.aluResult) =
        (if s.memwb.regWrite = true ∧ s.memwb.dest = s.exmem.dest then
          if s.memwb.memToReg = true then s.memwb.memResult else s.memwb.aluResult
        else s.exmem.storeVal) ∧
      ∀ a : Nat, a < 4 * wordIndex s.exmem.aluResult ∨ 4 * wordIndex s.exmem.aluResult + 4 ≤ a →
        t.dmem.readByte a = s.dmem.readByte a) ∧
    (s.exmem.memWrite = false → ∀ a : Nat, t.dmem.readByte a = s.dmem.readByte a)

/-- Rules R85, R86 and R89 for every instruction: EX/MEM takes the result of the instruction in EX on its forwarded
inputs, the destination, the store value read at decode and the propagated tags. -/
def Obligations.ExecuteStageOfEveryCycle : Prop :=
  ∀ (i : Instr) (s t : State), exec i s = .next t →
    let fwd : RegIdx → Word → Word := fun r regVal =>
      if s.exmem.regWrite = true ∧ s.exmem.dest = r then s.exmem.aluResult
      else if s.memwb.regWrite = true ∧ s.memwb.dest = r then
        (if s.memwb.memToReg = true then s.memwb.memResult else s.memwb.aluResult)
      else regVal
    let in1 := fwd s.idex.rs s.idex.rsVal
    let in2 :=
      if s.idex.aluSrc.code = 1 then s.idex.imm32
      else if s.idex.aluSrc.code = 2 then BitVec.ofNat 32 s.idex.imm16.toNat
      else fwd s.idex.rt s.idex.rtVal
    let r := alu s.cfg.sltMode s.idex.aluOp s.idex.negate in1 in2
    t.exmem.aluResult =
      (if s.idex.extra1 = .lui then Config.luiExResult in1 s.idex.imm16
        else if s.idex.extra1 = .nor then BitVec.ofNat 32 (2 ^ 32 - 1 - r.toNat) else r) ∧
    t.exmem.dest = (if s.idex.aluSrc.code ≠ 0 then s.idex.rt else s.idex.rd) ∧
    t.exmem.storeVal = s.idex.rtVal ∧ t.exmem.memRead = s.idex.memRead ∧ t.exmem.memWrite = s.idex.memWrite ∧
    t.exmem.memToReg = s.idex.memToReg ∧ t.exmem.regWrite = s.idex.regWrite ∧ t.exmem.extra1 = s.idex.extra1 ∧
    t.exmem.imm16 = s.idex.imm16

/-- The MEM/WB latch after every cycle (rules R38, R95): passed through, with the loaded word for a load and 0 for
every other instruction. -/
def Obligations.MemoryStageFillsMemWb : Prop :=
  ∀ (i : Instr) (s t : State), exec i s = .next t →
    t.memwb.memResult =
      (if s.exmem.memWrite = false ∧ s.exmem.memRead = true then
        s.dmem.readWord (s.exmem.aluResult.toNat / 4 * 4) else 0) ∧
    t.memwb.aluResult = s.exmem.aluResult ∧ t.memwb.dest = s.exmem.dest ∧ t.memwb.memToReg = s.exmem.memToReg ∧
    t.memwb.regWrite = s.exmem.regWrite ∧ t.memwb.extra1 = s.exmem.extra1 ∧ t.memwb.imm16 = s.exmem.imm16

/-- Rules R68 and R71: an instruction stalls exactly when the store hazard or the load-use hazard holds; LUI and J
never stall. -/
def Obligations.StallDecision : Prop :=
  (∀ (i : Instr) (s : State),
    stalls i s = true ↔ (storeRuleStalls i.fields s ∨ loadRuleStalls i.fields s)) ∧
  ∀ (s : State) (rs rt : RegIdx) (imm : Imm16) (address : BitVec 26),
    stalls (.lui rs rt imm) s = false ∧ stalls (.j address) s = false

/-- A stalled cycle, for every instruction: the PC holds, ID/EX is the bubble, and the same word is decoded again
(rules R65, R69, R80; holding the PC is decision D15 of the spec). -/
def Obligations.StallHoldsThePc : Prop :=
  ∀ (i : Instr) (s t : State), exec i s = .next t → storeRuleStalls i.fields s ∨ loadRuleStalls i.fields s →
    t.pc = s.pc ∧ t.idex = IdEx.zero ∧ decode t.fetchWord = decode s.fetchWord

/-- Rules R75, R76 and R77 for every instruction that issues: the kind of its next PC, from the register values the FD
position reads, and the PC it leads to; the reach of a branch and the rule's worked example of a jump. -/
def Obligations.IssuedWordsResolveTheirNextPc : Prop :=
  (∀ (i : Instr) (s t : State), exec i s = .next t → ¬(storeRuleStalls i.fields s ∨ loadRuleStalls i.fields s) →
    nextPcKind i.fields (fdRead s i.fields.rs) (fdRead s i.fields.rt) =
      (if i.fields.opcode.toNat = 2 then .jump
        else if (i.fields.opcode.toNat = 4 ∧ fdRead s i.fields.rs = fdRead s i.fields.rt) ∨
            (i.fields.opcode.toNat = 5 ∧ fdRead s i.fields.rs ≠ fdRead s i.fields.rt) then .branch
        else .sequential) ∧
    t.pc = issuedPc i.fields s) ∧
  (∀ imm : Imm16, -131072 ≤ 4 * imm.toInt ∧ 4 * imm.toInt ≤ 131068) ∧
  4 * (0x8000#16).toInt = -131072 ∧ 4 * (0x7FFF#16).toInt = 131068 ∧
  jumpTarget 0x00000004 0x3FFFFF = 0x00FFFFFC

/-- Rules R92 and R97 in the running machine, for every instruction: a bubble in EX becomes the zero EX/MEM latch
whatever the inputs, one in MEM the zero MEM/WB latch with data memory unchanged, and an instruction that neither
reads nor writes memory leaves it unchanged with a zero memory result. -/
def Obligations.BubblesStayBubbles : Prop :=
  (∀ (mode : SltMode) (in1 in2 : Word), execute mode IdEx.zero in1 in2 = ExMem.zero) ∧
  ∀ (i : Instr) (s t : State), exec i s = .next t →
    (s.idex = IdEx.zero → t.exmem = ExMem.zero) ∧
    (s.exmem = ExMem.zero → t.memwb = MemWb.zero ∧ t.dmem = s.dmem) ∧
    (s.exmem.memRead = false → s.exmem.memWrite = false → t.dmem = s.dmem ∧ t.memwb.memResult = 0)

/-- The word in the FD position decides the next PC and the new ID/EX latch and nothing else of a cycle: the register
file, data memory, EX/MEM and MEM/WB come out alike for any two instructions (rules R60, R62). -/
def Obligations.FetchedWordTouchesOnlyPcAndIdEx : Prop :=
  ∀ (i j : Instr) (s t u : State), exec i s = .next t → exec j s = .next u →
    t.rf = u.rf ∧ t.dmem = u.dmem ∧ t.exmem = u.exmem ∧ t.memwb = u.memwb ∧ t.imem = u.imem ∧
    t.imageWords = u.imageWords ∧ t.cfg = u.cfg

/-- The end-of-run test at the end of every cycle, and what would follow it: past the image with an idle pipeline a
further cycle would change no register and no byte of memory, keep the pipeline idle and advance the PC by 4
(rule R133). -/
def Obligations.EndOfRunIsDrained : Prop :=
  (∀ (i : Instr) (s t : State), exec i s = .next t →
    (t.status = .ended ↔
      t.imageWords ≤ t.pc.toNat / 4 ∧
      (t.idex.regWrite = false ∧ t.idex.memRead = false ∧ t.idex.memWrite = false) ∧
      (t.exmem.regWrite = false ∧ t.exmem.memRead = false ∧ t.exmem.memWrite = false) ∧ t.memwb.regWrite = false)) ∧
  ∀ s : State, s.imageWords ≤ s.pc.toNat / 4 → s.idle = true →
    ∃ t, exec (decode s.fetchWord) s = .next t ∧ t.rf = s.rf ∧ t.dmem = s.dmem ∧ t.idle = true ∧ t.pc = s.pc + 4

/-! ### Hazards -/

/-- No instruction stalls in three cycles running: where it stalled in two, it issues in the third (rules R138,
R145). -/
def Obligations.NoInstructionStallsMoreThanTwice : Prop :=
  ∀ (i : Instr) (s t u : State), stalls i s = true → exec i s = .next t → stalls i t = true → exec i t = .next u →
    stalls i u = false

/-- A branch's next PC depends on the PC, the register file and the instruction in WB only: no path reaches the FD
position from the instructions in EX and MEM (rules R66, R135). -/
def Obligations.BranchesSeeOnlyTheRegisterFile : Prop :=
  ∀ (i : Instr) (s s' t t' : State), s.pc = s'.pc → s.rf = s'.rf → s.memwb = s'.memwb → s.cfg = s'.cfg →
    stalls i s = false → stalls i s' = false → exec i s = .next t → exec i s' = .next t' → t.pc = t'.pc

/-- Under the invariants, the ALU inputs of an instruction in EX that is not LUI are the values its registers hold two
cycles later, when the two older instructions have written back, unless one of those is a LUI (rules R85, R86, R134). -/
def Obligations.ForwardedInputsAreTheLatestValues : Prop :=
  ∀ (i j : Instr) (s t u : State), s.Inv → s.HazardInv → (s.idex.regWrite = true ∨ s.idex.memWrite = true) →
    s.idex.extra1 ≠ .lui → s.exmem.extra1 ≠ .lui → s.memwb.extra1 ≠ .lui →
    exec i s = .next t → exec j t = .next u →
    aluInput1 s.idex s.exmem s.memwb = u.rf.read s.idex.rs ∧
    (s.idex.aluSrc = .reg → aluInput2 s.idex s.exmem s.memwb = u.rf.read s.idex.rt)

/-- Under the hazard invariant, the word a store in MEM writes is the value its register holds once the older
instruction has written back, unless that is a LUI (rules R91, R96, R134). -/
def Obligations.StoredWordIsTheLatestValue : Prop :=
  ∀ (i : Instr) (s t : State), s.HazardInv → s.dmem.wf → s.exmem.memWrite = true → s.memwb.extra1 ≠ .lui →
    exec i s = .next t →
    t.dmem.readWord (4 * wordIndex s.exmem.aluResult) = t.rf.read s.exmem.dest

/-- LUI: what is forwarded of it is the opaque EX result, in the next cycle from EX/MEM and in the one after from
MEM/WB (where no nearer instruction writes the same register), while the register file receives the immediate shifted
left by 16 (rules R93, R99, R136). -/
def Obligations.LuiForwardsItsOpaqueResult : Prop :=
  ∀ (i j k : Instr) (s t u v : State), s.idex.extra1 = .lui → s.idex.regWrite = true → s.idex.memToReg = false →
    exec i s = .next t → exec j t = .next u → exec k u = .next v →
    let l := Config.luiExResult (aluInput1 s.idex s.exmem s.memwb) s.idex.imm16
    (∀ x, forward t.exmem t.memwb (destIdEx s.idex) x = l) ∧
    (¬(u.exmem.regWrite = true ∧ u.exmem.dest = destIdEx s.idex) →
      ∀ x, forward u.exmem u.memwb (destIdEx s.idex) x = l) ∧
    v.rf.read (destIdEx s.idex) = BitVec.ofNat 32 (s.idex.imm16.toNat * 65536)

/-- The two settings of `STORE_SHADOW_MATCH` differ exactly for a store whose register is named, but not written, by
the instruction in EX and written by the one in MEM, with no load-use stall (rules R68, R137). -/
def Obligations.StoreShadowSettingsDiffer : Prop :=
  ∀ (i : Instr) (s : State) (cfg cfg' : Config),
    cfg.storeShadowMatch = .writeGated → cfg'.storeShadowMatch = .destOnly →
    (stalls i { s with cfg := cfg } ≠ stalls i { s with cfg := cfg' } ↔
      i.fields.opcode.toNat = 43 ∧ destIdEx s.idex = i.fields.rt ∧ s.idex.regWrite = false ∧
      s.exmem.regWrite = true ∧ s.exmem.dest = i.fields.rt ∧ ¬loadRuleStalls i.fields s)

/-- A load in the cycle after a store to the same word reads the word stored; from another word it reads what was
there (rule R57). -/
def Obligations.LoadSeesTheStoreBefore : Prop :=
  ∀ (i j : Instr) (s t u : State), s.dmem.wf → exec i s = .next t → exec j t = .next u →
    s.exmem.memWrite = true → t.exmem.memRead = true → t.exmem.memWrite = false →
    (wordIndex t.exmem.aluResult = wordIndex s.exmem.aluResult →
      u.memwb.memResult = storeValue s.exmem s.memwb) ∧
    (wordIndex t.exmem.aluResult ≠ wordIndex s.exmem.aluResult →
      u.memwb.memResult = s.dmem.readWord (4 * wordIndex t.exmem.aluResult))

/-! ### The sub-blocks -/

/-- Rule R87 (wrapping addition is decision D16): the ALU's result for every class, as numbers and bits, under both
settings of `SLT_MODE`. -/
def Obligations.AluResults : Prop :=
  ∀ (mode : SltMode) (negate : Bool) (a b : Word),
    let b' : Word := if negate then BitVec.ofNat 32 (2 ^ 32 - b.toNat) else b
    alu mode .nop negate a b = 0 ∧
    (∀ i, (alu mode .and negate a b).getLsbD i = (a.getLsbD i && b'.getLsbD i)) ∧
    (∀ i, (alu mode .or negate a b).getLsbD i = (a.getLsbD i || b'.getLsbD i)) ∧
    (∀ i, (alu mode .xor negate a b).getLsbD i = (a.getLsbD i ^^ b'.getLsbD i)) ∧
    (alu mode .add negate a b).toNat = (a.toNat + b'.toNat) % 2 ^ 32 ∧
    alu .wrappedSign .slt negate a b = (if 2 ^ 31 ≤ (a.toNat + b'.toNat) % 2 ^ 32 then 1 else 0) ∧
    alu .exactSign .slt negate a b =
      (if a.toInt + (if negate then -b.toInt else b.toInt) < 0 then 1 else 0) ∧
    alu mode .add true 10 3 = 7

/-- The two settings of `SLT_MODE` (rules R87, R88, decision D17): with `negate = 1` the exact less-than is the signed
comparison, the wrapped one differs from it exactly where the difference leaves the signed range, without `negate`
where the sum does; the examples of rule R88, and `neg(0x80000000)`. At `b = 0x80000000` the prose of rule R87 parts
from its formulas and from R88, which the model follows (log entry 17, DEDUCED). -/
def Obligations.SltModesDifferExactlyOnOverflow : Prop :=
  (∀ a b : Word, alu .exactSign .slt true a b = if a.toInt < b.toInt then 1 else 0) ∧
  (∀ a b : Word, alu .wrappedSign .slt true a b ≠ (if a.toInt < b.toInt then 1 else 0) ↔
    ¬(-2 ^ 31 ≤ a.toInt - b.toInt ∧ a.toInt - b.toInt ≤ 2 ^ 31 - 1)) ∧
  (∀ a b : Word, alu .wrappedSign .slt false a b ≠ alu .exactSign .slt false a b ↔
    ¬(-2 ^ 31 ≤ a.toInt + b.toInt ∧ a.toInt + b.toInt ≤ 2 ^ 31 - 1)) ∧
  alu .wrappedSign .slt true 0x80000000 1 = 0 ∧ alu .wrappedSign .slt true 0x7FFFFFFF 0xFFFFFFFF = 1 ∧
  alu .exactSign .slt true 0x80000000 1 = 1 ∧ alu .exactSign .slt true 0x7FFFFFFF 0xFFFFFFFF = 0 ∧
  negated true 0x80000000 = 0x80000000

/-- Rules R50 and R51, the fault by decision D20 of the spec: an access is defined exactly for an aligned address
inside the data memory; a store then replaces one word and no other, a load gives the whole word, and any other access
faults with its kind and address. -/
def Obligations.AccessPrimitives : Prop :=
  ∀ (cfg : Config) (m : Memory) (addr v : Word), m.wf →
    (addr.toNat % 4 = 0 → addr.toNat / 4 < cfg.dmemWords →
      memRead cfg m addr = .ok (m.readWord addr.toNat) ∧
      ∃ m', memWrite cfg m addr v = .ok m' ∧ m'.wf ∧ m'.readWord addr.toNat = v ∧
        ∀ k : Nat, k ≠ addr.toNat / 4 → m'.readWord (4 * k) = m.readWord (4 * k)) ∧
    (addr.toNat % 4 ≠ 0 ∨ cfg.dmemWords ≤ addr.toNat / 4 →
      memRead cfg m addr = .error (.memFault .load addr) ∧
      memWrite cfg m addr v = .error (.memFault .store addr))

/-! ### Completion in the FD position -/

/-- ADD, SUB, AND, OR, XOR, NOR and SLT issue with their rows of rule R79, wherever the access in MEM is defined and
the instruction does not stall (rules R78, R101 to R108). -/
def Obligations.RegisterAluIssues : Prop :=
  ∀ (s : State) (rs rt rd : RegIdx) (shamt : BitVec 5), ¬badAccess s →
    (stalls (.add rs rt rd shamt) s = false → IssuesWith (.add rs rt rd shamt) rs rt rd (rd ++ shamt ++ 0x20#6)
      (tuple .reg .add false false false false true true .none) s) ∧
    (stalls (.sub rs rt rd shamt) s = false → IssuesWith (.sub rs rt rd shamt) rs rt rd (rd ++ shamt ++ 0x22#6)
      (tuple .reg .add true false false false true true .none) s) ∧
    (stalls (.and rs rt rd shamt) s = false → IssuesWith (.and rs rt rd shamt) rs rt rd (rd ++ shamt ++ 0x24#6)
      (tuple .reg .and false false false false true true .none) s) ∧
    (stalls (.or rs rt rd shamt) s = false → IssuesWith (.or rs rt rd shamt) rs rt rd (rd ++ shamt ++ 0x25#6)
      (tuple .reg .or false false false false true true .none) s) ∧
    (stalls (.xor rs rt rd shamt) s = false → IssuesWith (.xor rs rt rd shamt) rs rt rd (rd ++ shamt ++ 0x26#6)
      (tuple .reg .xor false false false false true true .none) s) ∧
    (stalls (.nor rs rt rd shamt) s = false → IssuesWith (.nor rs rt rd shamt) rs rt rd (rd ++ shamt ++ 0x27#6)
      (tuple .reg .or false false false false true true .nor) s) ∧
    (stalls (.slt rs rt rd shamt) s = false → IssuesWith (.slt rs rt rd shamt) rs rt rd (rd ++ shamt ++ 0x2A#6)
      (tuple .reg .slt true false false false true true .none) s)

/-- ADDI, SLTI, ANDI, ORI, XORI and LUI issue with their rows of rule R79 (rules R78, R112, R179 to R184). LUI never
stalls. -/
def Obligations.ImmediateAluIssues : Prop :=
  ∀ (s : State) (rs rt : RegIdx) (imm : Imm16), ¬badAccess s →
    let rd : RegIdx := BitVec.ofNat 5 (imm.toNat / 2 ^ 11)
    (stalls (.addi rs rt imm) s = false → IssuesWith (.addi rs rt imm) rs rt rd imm
      (tuple .signExt .add false false false false false true .none) s) ∧
    (stalls (.slti rs rt imm) s = false → IssuesWith (.slti rs rt imm) rs rt rd imm
      (tuple .signExt .slt true false false false false true .none) s) ∧
    (stalls (.andi rs rt imm) s = false → IssuesWith (.andi rs rt imm) rs rt rd imm
      (tuple .zeroExt .and false false false false false true .none) s) ∧
    (stalls (.ori rs rt imm) s = false → IssuesWith (.ori rs rt imm) rs rt rd imm
      (tuple .zeroExt .or false false false false false true .none) s) ∧
    (stalls (.xori rs rt imm) s = false → IssuesWith (.xori rs rt imm) rs rt rd imm
      (tuple .zeroExt .xor false false false false false true .none) s) ∧
    IssuesWith (.lui rs rt imm) rs rt rd imm (tuple .signExt .nop false false false false false true .lui) s

/-- LW and SW issue with their rows of rule R79 (rules R78, R140, R141). -/
def Obligations.LoadStoreIssues : Prop :=
  ∀ (s : State) (rs rt : RegIdx) (imm : Imm16), ¬badAccess s →
    let rd : RegIdx := BitVec.ofNat 5 (imm.toNat / 2 ^ 11)
    (stalls (.lw rs rt imm) s = false → IssuesWith (.lw rs rt imm) rs rt rd imm
      (tuple .signExt .add false true false true false true .none) s) ∧
    (stalls (.sw rs rt imm) s = false → IssuesWith (.sw rs rt imm) rs rt rd imm
      (tuple .signExt .add false false true false false false .none) s)

/-- BEQ, BNE and J complete in their FD cycle: the next PC is the target or `pc + 4`, and the zero latch is left. J
never stalls (rules R81, R150 to R153). -/
def Obligations.ControlTransfersComplete : Prop :=
  ∀ (s : State) (rs rt : RegIdx) (imm : Imm16) (address : BitVec 26), ¬badAccess s →
    (stalls (.beq rs rt imm) s = false → ∃ t, exec (.beq rs rt imm) s = .next t ∧ t.idex = IdEx.zero ∧
      t.pc = if fdRead s rs = fdRead s rt then BitVec.ofInt 32 (s.pc.toNat + 4 + 4 * imm.toInt) else s.pc + 4) ∧
    (stalls (.bne rs rt imm) s = false → ∃ t, exec (.bne rs rt imm) s = .next t ∧ t.idex = IdEx.zero ∧
      t.pc = if fdRead s rs = fdRead s rt then s.pc + 4 else BitVec.ofInt 32 (s.pc.toNat + 4 + 4 * imm.toInt)) ∧
    (∃ t, exec (.j address) s = .next t ∧ t.idex = IdEx.zero ∧
      t.pc = BitVec.ofNat 32 (address.toNat * 4 + ((s.pc.toNat + 4) % 2 ^ 32) / 2 ^ 28 * 2 ^ 28))

/-- An unsupported word that does not stall completes as a no-op: the zero latch and `pc + 4` (rules R81, R115). -/
def Obligations.UnsupportedWordsAreNoOps : Prop :=
  ∀ (s : State) (w : Word), (Instr.unsupported w).wellFormed = true → ¬badAccess s →
    stalls (.unsupported w) s = false →
    ∃ t, exec (.unsupported w) s = .next t ∧ t.idex = IdEx.zero ∧ t.pc = s.pc + 4

/-- The uncertain encodings under `no_op` complete as no-ops, and under the other accepting setting with the control
rows of ADD, SUB, SLT, ADDI and SLTI (rules R83, R109 to R111, R185, R186). One clause is the model's reading and no
rule's words: under that other setting `imm16` and `imm32` in ID/EX are the word's own immediate bits, its own funct
included and not its twin's (log entry 14, DEDUCED from R78, which fills the latch from the decoded word, and R83, which
names the twin's row only). -/
def Obligations.UncertainEncodingsFollowTheParameter : Prop :=
  ∀ (s : State) (rs rt rd : RegIdx) (shamt : BitVec 5) (imm : Imm16), ¬badAccess s →
    (s.cfg.uncertainOps = .noOp →
      ∀ i ∈ [Instr.addu rs rt rd shamt, .subu rs rt rd shamt, .sltu rs rt rd shamt, .addiu rs rt imm,
          .sltiu rs rt imm], stalls i s = false →
        ∃ t, exec i s = .next t ∧ t.idex = IdEx.zero ∧ t.pc = s.pc + 4) ∧
    (s.cfg.uncertainOps = .twin →
      let rd' : RegIdx := BitVec.ofNat 5 (imm.toNat / 2 ^ 11)
      (stalls (.addu rs rt rd shamt) s = false → IssuesWith (.addu rs rt rd shamt) rs rt rd (rd ++ shamt ++ 0x21#6)
        (tuple .reg .add false false false false true true .none) s) ∧
      (stalls (.subu rs rt rd shamt) s = false → IssuesWith (.subu rs rt rd shamt) rs rt rd (rd ++ shamt ++ 0x23#6)
        (tuple .reg .add true false false false true true .none) s) ∧
      (stalls (.sltu rs rt rd shamt) s = false → IssuesWith (.sltu rs rt rd shamt) rs rt rd (rd ++ shamt ++ 0x2B#6)
        (tuple .reg .slt true false false false true true .none) s) ∧
      (stalls (.addiu rs rt imm) s = false → IssuesWith (.addiu rs rt imm) rs rt rd' imm
        (tuple .signExt .add false false false false false true .none) s) ∧
      (stalls (.sltiu rs rt imm) s = false → IssuesWith (.sltiu rs rt imm) rs rt rd' imm
        (tuple .signExt .slt true false false false false true .none) s))

/-! ### The whole passage through the pipeline -/

/-- The isolated effect of the register-register instructions: with no earlier instruction in flight,
`x[rd] <- F(x[rs], x[rt])` and nothing else changes, `rd = 0` included (rules R101 to R108). -/
def Obligations.RegisterAluIsolatedEffects : Prop :=
  ∀ (s : State) (rs rt rd : RegIdx) (shamt : BitVec 5), s.idle = true →
    let a := s.rf.read rs
    let b := s.rf.read rt
    WritesOnly (.add rs rt rd shamt) rd (BitVec.ofNat 32 (a.toNat + b.toNat)) s ∧
    WritesOnly (.sub rs rt rd shamt) rd (BitVec.ofInt 32 ((a.toNat : Int) - b.toNat)) s ∧
    WritesOnly (.and rs rt rd shamt) rd (a &&& b) s ∧
    WritesOnly (.or rs rt rd shamt) rd (a ||| b) s ∧
    WritesOnly (.xor rs rt rd shamt) rd (a ^^^ b) s ∧
    WritesOnly (.nor rs rt rd shamt) rd (~~~(a ||| b)) s ∧
    WritesOnly (.slt rs rt rd shamt) rd (sltValue s.cfg.sltMode a b) s

/-- The isolated effect of the immediate instructions: `x[rt] <- F(x[rs], immediate)`, sign-extended for ADDI and
SLTI, zero-extended for ANDI, ORI and XORI; LUI writes the immediate shifted left by 16 (rules R112, R164, R179 to
R184). -/
def Obligations.ImmediateAluIsolatedEffects : Prop :=
  ∀ (s : State) (rs rt : RegIdx) (imm : Imm16), s.idle = true →
    let a := s.rf.read rs
    WritesOnly (.addi rs rt imm) rt (BitVec.ofInt 32 (a.toNat + imm.toInt)) s ∧
    WritesOnly (.slti rs rt imm) rt (sltValue s.cfg.sltMode a (BitVec.ofInt 32 imm.toInt)) s ∧
    WritesOnly (.andi rs rt imm) rt (a &&& BitVec.ofNat 32 imm.toNat) s ∧
    WritesOnly (.ori rs rt imm) rt (a ||| BitVec.ofNat 32 imm.toNat) s ∧
    WritesOnly (.xori rs rt imm) rt (a ^^^ BitVec.ofNat 32 imm.toNat) s ∧
    WritesOnly (.lui rs rt imm) rt (BitVec.ofNat 32 (imm.toNat * 65536)) s

/-- The isolated effect of LW at an aligned address inside the data memory: `x[rt] <- DMEM[address >> 2]` and nothing
else changes (rules R98, R140). -/
def Obligations.LoadWordIsolatedEffect : Prop :=
  ∀ (s : State) (rs rt : RegIdx) (imm : Imm16), s.idle = true →
    (effectiveAddress s rs imm).toNat % 4 = 0 → (effectiveAddress s rs imm).toNat / 4 < s.cfg.dmemWords →
    WritesOnly (.lw rs rt imm) rt (s.dmem.readWord (effectiveAddress s rs imm).toNat) s

/-- The isolated effect of SW at an aligned address inside the data memory: `DMEM[address >> 2] <- x[rt]`, every byte
outside that word and every register as before (rules R98, R141). -/
def Obligations.StoreWordIsolatedEffect : Prop :=
  ∀ (s : State) (rs rt : RegIdx) (imm : Imm16), s.idle = true → s.dmem.wf →
    let a := (effectiveAddress s rs imm).toNat
    a % 4 = 0 → a / 4 < s.cfg.dmemWords →
    ∃ t, throughPipeline (.sw rs rt imm) s = .next t ∧ t.dmem.readWord a = s.rf.read rt ∧
      (∀ b : Nat, b < a ∨ a + 4 ≤ b → t.dmem.readByte b = s.dmem.readByte b) ∧
      (∀ r, t.rf.read r = s.rf.read r) ∧ t.imem = s.imem ∧ t.imageWords = s.imageWords ∧ t.cfg = s.cfg ∧
      t.idle = true

/-- LW and SW at a misaligned or out-of-range address end the run in the fault that names the access and the address
(rules R120, R140, R141). -/
def Obligations.UndefinedAccessesFault : Prop :=
  ∀ (s : State) (rs rt : RegIdx) (imm : Imm16), s.idle = true →
    ((effectiveAddress s rs imm).toNat % 4 ≠ 0 ∨ s.cfg.dmemWords ≤ (effectiveAddress s rs imm).toNat / 4) →
    throughPipeline (.lw rs rt imm) s = .fault (.memFault .load (effectiveAddress s rs imm)) ∧
    throughPipeline (.sw rs rt imm) s = .fault (.memFault .store (effectiveAddress s rs imm))

/-- BEQ, BNE, J and every unsupported word write no register and no memory on their whole way (rules R81, R100, R115,
R153). -/
def Obligations.TransfersAndNoOpsWriteNothing : Prop :=
  ∀ (s : State) (rs rt : RegIdx) (imm : Imm16) (address : BitVec 26) (w : Word), s.idle = true →
    WritesNothing (.beq rs rt imm) s ∧ WritesNothing (.bne rs rt imm) s ∧ WritesNothing (.j address) s ∧
    WritesNothing (.unsupported w) s

/-- The isolated effect of the uncertain encodings: none under `no_op`, their twin's under the other accepting
setting, SLTU and SLTIU comparing signed (rules R109 to R111, R185, R186). -/
def Obligations.UncertainIsolatedEffects : Prop :=
  ∀ (s : State) (rs rt rd : RegIdx) (shamt : BitVec 5) (imm : Imm16), s.idle = true →
    let a := s.rf.read rs
    let b := s.rf.read rt
    (s.cfg.uncertainOps = .noOp →
      WritesNothing (.addu rs rt rd shamt) s ∧ WritesNothing (.subu rs rt rd shamt) s ∧
      WritesNothing (.sltu rs rt rd shamt) s ∧ WritesNothing (.addiu rs rt imm) s ∧
      WritesNothing (.sltiu rs rt imm) s) ∧
    (s.cfg.uncertainOps = .twin →
      WritesOnly (.addu rs rt rd shamt) rd (BitVec.ofNat 32 (a.toNat + b.toNat)) s ∧
      WritesOnly (.subu rs rt rd shamt) rd (BitVec.ofInt 32 ((a.toNat : Int) - b.toNat)) s ∧
      WritesOnly (.sltu rs rt rd shamt) rd (sltValue s.cfg.sltMode a b) s ∧
      WritesOnly (.addiu rs rt imm) rt (BitVec.ofInt 32 (a.toNat + imm.toInt)) s ∧
      WritesOnly (.sltiu rs rt imm) rt (sltValue s.cfg.sltMode a (BitVec.ofInt 32 imm.toInt)) s)

/-! ### The signals of the sub-blocks, and the host's run -/

/-- The Branch Resolver's output `kind` as its 2-bit code, for all its inputs: 2 for J, 1 for a branch that is taken,
else 0 (rules R70, R75). -/
def Obligations.BranchResolverCodes : Prop :=
  ∀ (f : Fields) (rsVal rtVal : Word),
    (nextPcKind f rsVal rtVal).code =
      if f.opcode.toNat = 2 then 2
      else if (f.opcode.toNat = 4 ∧ rsVal = rtVal) ∨ (f.opcode.toNat = 5 ∧ rsVal ≠ rtVal) then 1 else 0

/-- The Control/Decode Stage, given the stall decision, the fields of a well-formed instruction, `pc + 4` and the two
register values, decides that instruction's FD cycle, wherever the access in MEM is defined: by `refuse` it is refused,
exactly for an uncertain encoding under `refuse`; else ID/EX takes the stage's latch, and the PC holds exactly when
`issued` is false (rules R64, R69, R70, R78 to R83). That an uncertain encoding's latch holds its own immediate bits is
the model's reading (log entry 14, DEDUCED). -/
def Obligations.ControlStageDecidesTheCycle : Prop :=
  ∀ (i : Instr) (s : State), i.wellFormed = true → ¬badAccess s →
    let out := decodeStage s.cfg (stalls i s) i.fields (s.pc + 4) (fdRead s i.fields.rs) (fdRead s i.fields.rt)
    (out.refuse = true ↔ uncertain i = true ∧ s.cfg.uncertainOps = .refuse) ∧
    (out.issued = false ↔ storeRuleStalls i.fields s ∨ loadRuleStalls i.fields s) ∧
    (out.refuse = true → exec i s = .refused (.uncertainEncoding s.pc (encode i))) ∧
    (out.refuse = false → ∃ t, exec i s = .next t ∧ t.idex = out.idex ∧
      t.pc = if out.issued = true then issuedPc i.fields s else s.pc)

/-- The host's run, from any state: it stops with a final state, a status and a number of cycles exactly when that many
completed cycles of running states lead there and the run ends there with that status, so a cycle that faults or is
refused is not counted. It answers that the bound is used up exactly when that many cycles lead to a state that is
running and can complete a further one (rules R64, R120, R121, R132, R133, R145). -/
def Obligations.HostStopsAtTheFirstEndStatus : Prop :=
  ∀ (bound : Nat) (s t : State),
    (∀ (status : EndStatus) (cycles : Nat), runFrom bound 0 s = .stopped t status cycles ↔
      cycles ≤ bound ∧ Cycles cycles s t ∧ EndsWith t status) ∧
    (runFrom bound 0 s = .outOfCycles t ↔ Cycles bound s t ∧ t.status = .running ∧ ∃ v, step t = .next v)
end

