-- ==== Sys2Proof/Laws/Arith.lean ====
section
/-! SUPPORT. The machine's bit operations as arithmetic on numbers: the extensions, the `negate` signal, the sign bit
and the two target sums. -/

namespace Sys2Proof.Machine

/-- Sign extension keeps the signed value (rule R11). -/
theorem sext32_eq_ofInt (v : Imm16) : sext32 v = BitVec.ofInt 32 v.toInt := by
  apply BitVec.eq_of_toInt_eq
  rw [sext32, BitVec.toInt_signExtend_of_le (by decide), BitVec.toInt_ofInt]
  have := BitVec.toInt_lt (x := v)
  have := BitVec.le_toInt (x := v)
  rw [Int.bmod_eq_of_le] <;> simp at * <;> omega

/-- Zero extension keeps the unsigned value (rule R11). -/
theorem zext32_eq_ofNat (v : Imm16) : zext32 v = BitVec.ofNat 32 v.toNat := by
  apply BitVec.eq_of_toNat_eq
  simp [zext32]

/-- The value LUI writes back, as a number (rule R99). -/
theorem zext32_shiftLeft_16 (v : Imm16) : zext32 v <<< 16 = BitVec.ofNat 32 (v.toNat * 65536) := by
  apply BitVec.eq_of_toNat_eq
  simp [zext32, BitVec.toNat_shiftLeft, Nat.shiftLeft_eq]

/-- `b'` of rule R87 as a number. -/
theorem negated_eq (negate : Bool) (b : Word) :
    negated negate b = if negate then BitVec.ofNat 32 (2 ^ 32 - b.toNat) else b := by
  unfold negated
  split_ifs
  · apply BitVec.eq_of_toNat_eq
    rw [BitVec.toNat_sub, BitVec.toNat_ofNat]; simp
  · rfl

/-- Bit 31 as a comparison of numbers. -/
theorem getLsbD_31 (x : Word) : x.getLsbD 31 = decide (2 ^ 31 ≤ x.toNat) := by
  rw [show x.getLsbD 31 = x.msb by rw [BitVec.msb_eq_getLsbD_last], BitVec.msb_eq_decide]

theorem pc_add_4 (pc : Word) : pc + 4 = BitVec.ofNat 32 (pc.toNat + 4) := by
  apply BitVec.eq_of_toNat_eq
  simp

/-- The branch target as a sum of integers modulo 2^32 (rule R76). -/
theorem branchTarget_eq (pc : Word) (imm : Imm16) :
    branchTarget (pc + 4) (sext32 imm) = BitVec.ofInt 32 (pc.toNat + 4 + 4 * imm.toInt) := by
  have h : (BitVec.ofInt 32 imm.toInt) <<< 2 = BitVec.ofInt 32 (4 * imm.toInt) := by
    rw [BitVec.shiftLeft_eq_mul_twoPow, Int.mul_comm, BitVec.ofInt_mul]; rfl
  unfold branchTarget
  rw [sext32_eq_ofInt, h, pc_add_4, show ((pc.toNat : Int) + 4 + 4 * imm.toInt) =
    ((pc.toNat + 4 : Nat) : Int) + 4 * imm.toInt by omega, BitVec.ofInt_add, BitVec.ofInt_natCast]

theorem regionMask_getLsbD : ∀ i < 32, (0xF0000000#32).getLsbD i = decide (28 ≤ i) := by decide

/-- The region bits of rule R77 as a number. -/
theorem regionBits_toNat (p : Word) : (p &&& 0xF0000000#32).toNat = p.toNat / 2 ^ 28 * 2 ^ 28 := by
  have h : p &&& 0xF0000000#32 = (p >>> 28) <<< 28 := by
    apply BitVec.eq_of_getLsbD_eq
    intro i hi
    simp only [BitVec.getLsbD_and, BitVec.getLsbD_shiftLeft, BitVec.getLsbD_ushiftRight, regionMask_getLsbD i hi]
    by_cases h : i < 28
    · simp [h]
    · simp [h, hi, show 28 ≤ i by omega, show 28 + (i - 28) = i by omega]
  have := p.isLt
  rw [h, BitVec.toNat_shiftLeft, BitVec.toNat_ushiftRight, Nat.shiftLeft_eq, Nat.shiftRight_eq_div_pow]
  omega

/-- The jump target as a sum of numbers (rule R77). -/
theorem jumpTarget_eq (p : Word) (address : BitVec 26) :
    jumpTarget p address = BitVec.ofNat 32 (address.toNat * 4 + p.toNat / 2 ^ 28 * 2 ^ 28) := by
  have hd : (address.setWidth 32 <<< 2) &&& (p &&& 0xF0000000#32) = 0#32 := by
    apply BitVec.eq_of_getLsbD_eq
    intro i hi
    simp only [BitVec.getLsbD_and, BitVec.getLsbD_shiftLeft, BitVec.getLsbD_setWidth, BitVec.getLsbD_zero,
      regionMask_getLsbD i hi]
    by_cases h : 28 ≤ i
    · simp [BitVec.getLsbD_of_ge address (i - 2) (by omega)]
    · simp [h]
  have := address.isLt
  have := p.isLt
  unfold jumpTarget
  rw [← BitVec.add_eq_or_of_and_eq_zero _ _ hd]
  apply BitVec.eq_of_toNat_eq
  rw [BitVec.toNat_add, regionBits_toNat, BitVec.toNat_shiftLeft, BitVec.toNat_setWidth, BitVec.toNat_ofNat,
    Nat.shiftLeft_eq]
  omega

end Sys2Proof.Machine
end

