-- ==== Sys2Proof/Laws/Memory.lean ====
section
/-! SUPPORT. The laws of a memory: what a read gives after a write, and that every operation keeps the canonical
form. -/

namespace Sys2Proof.Machine

/-! ### Bytes -/

/-- An address below every listed one reads as an unlisted one. -/
theorem Memory.readByte_below {m : Memory} {a : Nat} (h : ∀ c ∈ m, a < c.1) : m.readByte a = Memory.unlisted := by
  induction m with
  | nil => rfl
  | cons c m ih =>
    have hc : a < c.1 := h c (by simp)
    rw [Memory.readByte, if_neg (by omega), ih fun d hd => h d (by simp [hd])]

/-- `consByte` in front of higher entries. -/
theorem Memory.readByte_consByte {m : Memory} {a : Nat} {v : Byte} (h : ∀ c ∈ m, a < c.1) (b : Nat) :
    (Memory.consByte a v m).readByte b = if b = a then v else m.readByte b := by
  unfold Memory.consByte
  split
  · split
    · subst b; rw [Memory.readByte_below h]; exact Eq.symm ‹_›
    · rfl
  · rw [Memory.readByte]

/-- The head of a canonical memory is below its tail. -/
theorem Memory.wf.head_lt {c : Host.Cell} {m : Memory} (h : Memory.wf (c :: m)) : ∀ d ∈ m, c.1 < d.1 :=
  (List.pairwise_cons.1 h.1).1

theorem Memory.wf.tail {c : Host.Cell} {m : Memory} (h : Memory.wf (c :: m)) : Memory.wf m :=
  ⟨(List.pairwise_cons.1 h.1).2, fun d hd => h.2 d (by simp [hd])⟩

theorem Memory.wf_nil : Memory.wf [] := ⟨List.Pairwise.nil, by simp⟩

/-- A read after a write of one byte. -/
theorem Memory.readByte_writeByte {m : Memory} (h : m.wf) (a b : Nat) (v : Byte) :
    (m.writeByte a v).readByte b = if b = a then v else m.readByte b := by
  induction m with
  | nil => rw [Memory.writeByte, Memory.readByte_consByte (by simp)]
  | cons c m ih =>
    obtain ⟨k, u⟩ := c
    have hk := h.head_lt
    rw [Memory.writeByte]
    split
    · rw [Memory.readByte_consByte]
      intro d hd
      rcases List.mem_cons.1 hd with rfl | hd
      · assumption
      · have := hk d hd; simp only at this; omega
    · split
      · subst a
        rw [Memory.readByte_consByte hk, Memory.readByte]
        split <;> rfl
      · rw [Memory.readByte, Memory.readByte, ih h.tail]
        split
        · rw [if_neg (by omega)]
        · rfl

/-- Where the entries of a written memory come from. -/
theorem Memory.mem_writeByte {m : Memory} {a : Nat} {v : Byte} {c : Host.Cell} (hc : c ∈ m.writeByte a v) :
    c ∈ m ∨ (c = (a, v) ∧ v ≠ Memory.unlisted) := by
  have hcons : ∀ m' : Memory, c ∈ Memory.consByte a v m' → c ∈ m' ∨ (c = (a, v) ∧ v ≠ Memory.unlisted) := by
    intro m' h
    unfold Memory.consByte at h
    split at h
    · exact .inl h
    · rcases List.mem_cons.1 h with h | h
      · exact .inr ⟨h, ‹_›⟩
      · exact .inl h
  induction m with
  | nil => exact hcons _ hc
  | cons d m ih =>
    obtain ⟨k, u⟩ := d
    rw [Memory.writeByte] at hc
    split at hc
    · exact hcons _ hc
    · split at hc
      · rcases hcons _ hc with h | h
        · exact .inl (by simp [h])
        · exact .inr h
      · rcases List.mem_cons.1 hc with rfl | hc
        · exact .inl (by simp)
        · rcases ih hc with h | h
          · exact .inl (by simp [h])
          · exact .inr h

theorem Memory.consByte_wf {m : Memory} {a : Nat} {v : Byte} (h : m.wf) (ha : ∀ c ∈ m, a < c.1) :
    (Memory.consByte a v m).wf := by
  unfold Memory.consByte
  split
  · exact h
  · refine ⟨List.pairwise_cons.2 ⟨ha, h.1⟩, fun c hc => ?_⟩
    rcases List.mem_cons.1 hc with rfl | hc
    · assumption
    · exact h.2 c hc

/-- Writing a byte keeps the canonical form. -/
theorem Memory.writeByte_wf {m : Memory} (h : m.wf) (a : Nat) (v : Byte) : (m.writeByte a v).wf := by
  induction m with
  | nil => exact Memory.consByte_wf h (by simp)
  | cons c m ih =>
    obtain ⟨k, u⟩ := c
    have hk := h.head_lt
    rw [Memory.writeByte]
    split
    · refine Memory.consByte_wf h fun d hd => ?_
      rcases List.mem_cons.1 hd with rfl | hd
      · assumption
      · have := hk d hd; simp only at this; omega
    · split
      · subst a; exact Memory.consByte_wf h.tail hk
      · refine ⟨List.pairwise_cons.2 ⟨fun d hd => ?_, (ih h.tail).1⟩, fun d hd => ?_⟩
        · rcases Memory.mem_writeByte hd with hd | ⟨rfl, -⟩
          · exact hk d hd
          · simp only; omega
        · rcases List.mem_cons.1 hd with rfl | hd
          · exact h.2 _ (by simp)
          · exact (ih h.tail).2 d hd

/-! ### Words -/

/-- The bytes of a word rejoin to it. -/
@[simp] theorem wordOfBytes_byteOfWord (w : Word) :
    wordOfBytes (byteOfWord w 0) (byteOfWord w 1) (byteOfWord w 2) (byteOfWord w 3) = w := by
  unfold wordOfBytes byteOfWord
  ext i hi
  simp only [BitVec.getElem_append, BitVec.getElem_extractLsb']
  rcases Nat.lt_or_ge i 8 with h | h <;> rcases Nat.lt_or_ge i 16 with h' | h' <;>
    rcases Nat.lt_or_ge i 24 with h'' | h'' <;> first | omega | skip
  · simp [h, BitVec.getLsbD_eq_getElem hi]
  · simp [show ¬ i < 8 by omega, show i - 8 < 8 by omega, show 8 + (i - 8) = i by omega,
      BitVec.getLsbD_eq_getElem hi]
  · simp [show ¬ i < 8 by omega, show ¬ i - 8 < 8 by omega, show i - 8 - 8 < 8 by omega,
      show 16 + (i - 8 - 8) = i by omega, BitVec.getLsbD_eq_getElem hi]
  · simp [show ¬ i < 8 by omega, show ¬ i - 8 < 8 by omega, show ¬ i - 8 - 8 < 8 by omega,
      show 24 + (i - 8 - 8 - 8) = i by omega, BitVec.getLsbD_eq_getElem hi]

/-- Writing a word keeps the canonical form. -/
theorem Memory.writeWord_wf {m : Memory} (h : m.wf) (a : Nat) (v : Word) : (m.writeWord a v).wf :=
  Memory.writeByte_wf (Memory.writeByte_wf (Memory.writeByte_wf (Memory.writeByte_wf h _ _) _ _) _ _) _ _

/-- Every byte after the write of a word. -/
theorem Memory.readByte_writeWord {m : Memory} (h : m.wf) (a b : Nat) (v : Word) :
    (m.writeWord a v).readByte b =
      if b = a + 3 then byteOfWord v 3 else if b = a + 2 then byteOfWord v 2
      else if b = a + 1 then byteOfWord v 1 else if b = a then byteOfWord v 0 else m.readByte b := by
  unfold Memory.writeWord
  have h0 := Memory.writeByte_wf h a (byteOfWord v 0)
  have h1 := Memory.writeByte_wf h0 (a + 1) (byteOfWord v 1)
  have h2 := Memory.writeByte_wf h1 (a + 2) (byteOfWord v 2)
  rw [Memory.readByte_writeByte h2, Memory.readByte_writeByte h1, Memory.readByte_writeByte h0,
    Memory.readByte_writeByte h]

/-- A byte outside a written word. -/
theorem Memory.readByte_writeWord_other {m : Memory} (h : m.wf) {a b : Nat} (v : Word) (hb : b < a ∨ a + 4 ≤ b) :
    (m.writeWord a v).readByte b = m.readByte b := by
  rw [Memory.readByte_writeWord h, if_neg (by omega), if_neg (by omega), if_neg (by omega), if_neg (by omega)]

/-- A read after a write of the same word. -/
theorem Memory.readWord_writeWord {m : Memory} (h : m.wf) (a : Nat) (v : Word) :
    (m.writeWord a v).readWord a = v := by
  unfold Memory.readWord
  simp only [Memory.readByte_writeWord h]
  simp

/-- A read of a word apart from the written one. -/
theorem Memory.readWord_writeWord_other {m : Memory} (h : m.wf) {a b : Nat} (v : Word) (hb : b + 4 ≤ a ∨ a + 4 ≤ b) :
    (m.writeWord a v).readWord b = m.readWord b := by
  unfold Memory.readWord
  rw [Memory.readByte_writeWord_other h v (by omega), Memory.readByte_writeWord_other h v (by omega),
    Memory.readByte_writeWord_other h v (by omega), Memory.readByte_writeWord_other h v (by omega)]

/-- Where the entries of a memory come from after the write of a word. -/
theorem Memory.mem_writeWord {m : Memory} {a : Nat} {v : Word} {c : Host.Cell} (hc : c ∈ m.writeWord a v) :
    c ∈ m ∨ (a ≤ c.1 ∧ c.1 < a + 4) := by
  unfold Memory.writeWord at hc
  rcases Memory.mem_writeByte hc with hc | ⟨rfl, -⟩
  · rcases Memory.mem_writeByte hc with hc | ⟨rfl, -⟩
    · rcases Memory.mem_writeByte hc with hc | ⟨rfl, -⟩
      · rcases Memory.mem_writeByte hc with hc | ⟨rfl, -⟩
        · exact .inl hc
        · exact .inr (by simp)
      · exact .inr (by simp)
    · exact .inr (by simp)
  · exact .inr (by simp)

/-! ### Images -/

theorem Memory.ofWords_wf (k : Nat) (ws : List Word) : (Memory.ofWords k ws).wf := by
  induction ws generalizing k with
  | nil => exact Memory.wf_nil
  | cons w ws ih => exact Memory.writeWord_wf (ih _) _ _

theorem Memory.mem_ofWords {k : Nat} {ws : List Word} {c : Host.Cell} (hc : c ∈ Memory.ofWords k ws) :
    4 * k ≤ c.1 ∧ c.1 < 4 * (k + ws.length) := by
  induction ws generalizing k with
  | nil => simp [Memory.ofWords] at hc
  | cons w ws ih =>
    rcases Memory.mem_writeWord hc with hc | hc
    · have := ih hc; simp only [List.length_cons]; omega
    · simp only [List.length_cons]; omega

/-! ### The access primitives -/

theorem memFault?_eq_none_iff {cfg : Config} {access : Access} {addr : Word} :
    memFault? cfg access addr = none ↔ accessOk cfg addr = true := by
  unfold memFault?; split <;> simp_all

/-- What `MemRead` can do. -/
theorem memRead_cases (cfg : Config) (dmem : Memory) (addr : Word) :
    (accessOk cfg addr = true ∧ memRead cfg dmem addr = .ok (dmem.readWord (4 * wordIndex addr))) ∨
      (accessOk cfg addr = false ∧ memRead cfg dmem addr = .error (.memFault .load addr)) := by
  unfold memRead memFault?
  cases accessOk cfg addr <;> simp

/-- What `MemWrite` can do. -/
theorem memWrite_cases (cfg : Config) (dmem : Memory) (addr v : Word) :
    (accessOk cfg addr = true ∧ memWrite cfg dmem addr v = .ok (dmem.writeWord (4 * wordIndex addr) v)) ∨
      (accessOk cfg addr = false ∧ memWrite cfg dmem addr v = .error (.memFault .store addr)) := by
  unfold memWrite memFault?
  cases accessOk cfg addr <;> simp

theorem accessOk_iff {cfg : Config} {addr : Word} :
    accessOk cfg addr = true ↔ aligned addr = true ∧ wordIndex addr < cfg.dmemWords := by
  simp [accessOk]

/-- `addr >> 2` as a number. -/
theorem wordIndex_eq (addr : Word) : wordIndex addr = addr.toNat / 4 := by
  simp [wordIndex, BitVec.toNat_ushiftRight, Nat.shiftRight_eq_div_pow]

/-- `addr[1:0] = 0` as a number. -/
theorem aligned_iff (addr : Word) : aligned addr = true ↔ addr.toNat % 4 = 0 := by
  simp [aligned, BitVec.toNat_eq, BitVec.extractLsb'_toNat]

end Sys2Proof.Machine
end

