-- ==== Sys2Proof/Laws/Registers.lean ====
section
/-! SUPPORT. The laws of the register file's ports and of the Write-Back Stage. -/

namespace Sys2Proof.Machine

/-- A read after a write, register 0 like any other (rule R31). -/
theorem RegFile.read_write (rf : RegFile) (r q : RegIdx) (v : Word) :
    (rf.write r v).read q = if q = r then v else rf.read q := by
  simp only [RegFile.read, RegFile.write, Vector.getElem_set, BitVec.toNat_inj]
  split
  · subst q; simp
  · rw [if_neg (fun h => ‹¬ r = q› h.symm)]

@[simp] theorem RegFile.read_write_same (rf : RegFile) (r : RegIdx) (v : Word) : (rf.write r v).read r = v := by
  simp [RegFile.read_write]

/-- Two register files that read alike are equal. -/
theorem RegFile.ext_read {rf rf' : RegFile} (h : ∀ r : RegIdx, rf.read r = rf'.read r) : rf = rf' := by
  apply Vector.ext
  intro i hi
  have := h (BitVec.ofNat 5 i)
  simpa only [RegFile.read, BitVec.toNat_ofNat, Nat.mod_eq_of_lt (show i < 2 ^ 5 from hi)] using this

/-- Every register after the Write-Back Stage (rule R99). -/
theorem writeBack_read (memwb : MemWb) (rf : RegFile) (r : RegIdx) :
    (writeBack memwb rf).read r =
      if memwb.regWrite = true ∧ r = memwb.dest then memwb.written else rf.read r := by
  unfold writeBack
  cases memwb.regWrite <;> simp [RegFile.read_write]

/-- Without `regWrite` nothing is written (rule R100). -/
theorem writeBack_of_not {memwb : MemWb} (h : memwb.regWrite = false) (rf : RegFile) : writeBack memwb rf = rf := by
  simp [writeBack, h]

end Sys2Proof.Machine
end

