-- ==== Sys2Proof/Laws/State.lean ====
section
/-! SUPPORT. One lemma per field for each state update of the machine, so that no proof unfolds a record update. -/

namespace Sys2Proof.Machine

/-! ### The end-of-run test -/

section AtBoundary
variable (s : State)

@[simp] theorem State.atBoundary_pc : s.atBoundary.pc = s.pc := rfl
@[simp] theorem State.atBoundary_idex : s.atBoundary.idex = s.idex := rfl
@[simp] theorem State.atBoundary_exmem : s.atBoundary.exmem = s.exmem := rfl
@[simp] theorem State.atBoundary_memwb : s.atBoundary.memwb = s.memwb := rfl
@[simp] theorem State.atBoundary_rf : s.atBoundary.rf = s.rf := rfl
@[simp] theorem State.atBoundary_dmem : s.atBoundary.dmem = s.dmem := rfl
@[simp] theorem State.atBoundary_imem : s.atBoundary.imem = s.imem := rfl
@[simp] theorem State.atBoundary_imageWords : s.atBoundary.imageWords = s.imageWords := rfl
@[simp] theorem State.atBoundary_cfg : s.atBoundary.cfg = s.cfg := rfl
@[simp] theorem State.atBoundary_idle : s.atBoundary.idle = s.idle := rfl
@[simp] theorem State.atBoundary_pastImage : s.atBoundary.pastImage = s.pastImage := rfl

theorem State.atBoundary_status :
    s.atBoundary.status = if s.pastImage && s.idle then .ended else .running := rfl

theorem State.atBoundary_ended_iff : s.atBoundary.status = .ended ↔ (s.pastImage = true ∧ s.idle = true) := by
  rw [State.atBoundary_status]
  cases s.pastImage <;> cases s.idle <;> simp

end AtBoundary

/-! ### The Control/Decode Stage and the end of a cycle -/

section EndOfCycle
variable (s : State) (f : Fields) (b : Bundle) (m : MemWb × Memory)

@[simp] theorem State.decodeOutput_issued :
    (s.decodeOutput f b).issued = !needsStall s.cfg f s.idex s.exmem := rfl
@[simp] theorem State.decodeOutput_idex : (s.decodeOutput f b).idex =
    if needsStall s.cfg f s.idex s.exmem then .zero
    else decodeLatch f (b.row s.cfg) (s.readFile.read f.rs) (s.readFile.read f.rt) := rfl
@[simp] theorem State.decodeOutput_refuse : (s.decodeOutput f b).refuse = b.refused s.cfg := rfl

@[simp] theorem State.endOfCycle_pc : (s.endOfCycle f b m).pc =
    nextPc (!needsStall s.cfg f s.idex s.exmem) f s.pc (s.readFile.read f.rs) (s.readFile.read f.rt) := rfl

@[simp] theorem State.endOfCycle_idex : (s.endOfCycle f b m).idex =
    if needsStall s.cfg f s.idex s.exmem then .zero
    else decodeLatch f (b.row s.cfg) (s.readFile.read f.rs) (s.readFile.read f.rt) := rfl

@[simp] theorem State.endOfCycle_exmem : (s.endOfCycle f b m).exmem =
    execute s.cfg.sltMode s.idex (aluInput1 s.idex s.exmem s.memwb) (aluInput2 s.idex s.exmem s.memwb) := rfl

@[simp] theorem State.endOfCycle_memwb : (s.endOfCycle f b m).memwb = m.1 := rfl
@[simp] theorem State.endOfCycle_rf : (s.endOfCycle f b m).rf = writeBack s.memwb s.rf := rfl
@[simp] theorem State.endOfCycle_dmem : (s.endOfCycle f b m).dmem = m.2 := rfl
@[simp] theorem State.endOfCycle_imem : (s.endOfCycle f b m).imem = s.imem := rfl
@[simp] theorem State.endOfCycle_imageWords : (s.endOfCycle f b m).imageWords = s.imageWords := rfl
@[simp] theorem State.endOfCycle_cfg : (s.endOfCycle f b m).cfg = s.cfg := rfl

theorem State.endOfCycle_ended_iff : (s.endOfCycle f b m).status = .ended ↔
    ((s.endOfCycle f b m).pastImage = true ∧ (s.endOfCycle f b m).idle = true) :=
  State.atBoundary_ended_iff _

end EndOfCycle

/-! ### Launch -/

section Launch
variable (image : List Word) (rf0 : RegFile) (dmem0 : Memory) (cfg : Config)

@[simp] theorem State.launch_pc : (State.launch image rf0 dmem0 cfg).pc = 0 := rfl
@[simp] theorem State.launch_idex : (State.launch image rf0 dmem0 cfg).idex = .zero := rfl
@[simp] theorem State.launch_exmem : (State.launch image rf0 dmem0 cfg).exmem = .zero := rfl
@[simp] theorem State.launch_memwb : (State.launch image rf0 dmem0 cfg).memwb = .zero := rfl
@[simp] theorem State.launch_rf : (State.launch image rf0 dmem0 cfg).rf = rf0 := rfl
@[simp] theorem State.launch_dmem : (State.launch image rf0 dmem0 cfg).dmem = dmem0 := rfl
@[simp] theorem State.launch_imem : (State.launch image rf0 dmem0 cfg).imem = Memory.ofWords 0 image := rfl
@[simp] theorem State.launch_imageWords : (State.launch image rf0 dmem0 cfg).imageWords = image.length := rfl
@[simp] theorem State.launch_cfg : (State.launch image rf0 dmem0 cfg).cfg = cfg := rfl

/-- Reset with nothing loaded is the launch of the empty image with the model's launch values. -/
theorem State.reset_eq_launch :
    State.reset = State.launch [] (Vector.replicate 32 0) [] Config.standard := rfl

end Launch

/-! ### Placing an instruction -/

section WithFetchWord
variable (s : State) (nbits w : Nat)

@[simp] theorem State.withFetchWord_idex : (s.withFetchWord nbits w).idex = s.idex := rfl
@[simp] theorem State.withFetchWord_exmem : (s.withFetchWord nbits w).exmem = s.exmem := rfl
@[simp] theorem State.withFetchWord_memwb : (s.withFetchWord nbits w).memwb = s.memwb := rfl
@[simp] theorem State.withFetchWord_rf : (s.withFetchWord nbits w).rf = s.rf := rfl
@[simp] theorem State.withFetchWord_dmem : (s.withFetchWord nbits w).dmem = s.dmem := rfl
@[simp] theorem State.withFetchWord_status : (s.withFetchWord nbits w).status = .running := rfl
@[simp] theorem State.withFetchWord_cfg : (s.withFetchWord nbits w).cfg = s.cfg := rfl

end WithFetchWord

end Sys2Proof.Machine
end

