-- ==== Sys2Proof/Laws/Cycle.lean ====
section
/-! SUPPORT. What a cycle can do, said once: the Memory Stage, the cycle with a decoded word, `exec` for every
instruction, and `step`. -/

namespace Sys2Proof.Machine

/-! ### The Memory Stage -/

/-- What the Memory Stage can do (rules R95, R120). -/
theorem memoryStage_cases (cfg : Config) (exmem : ExMem) (memwb : MemWb) (dmem : Memory) :
    (exmem.memWrite = true ∧ accessOk cfg exmem.aluResult = true ∧
      memoryStage cfg exmem memwb dmem =
        .ok (passToMemWb exmem 0, dmem.writeWord (4 * wordIndex exmem.aluResult) (storeValue exmem memwb))) ∨
    (exmem.memWrite = true ∧ accessOk cfg exmem.aluResult = false ∧
      memoryStage cfg exmem memwb dmem = .error (.memFault .store exmem.aluResult)) ∨
    (exmem.memWrite = false ∧ exmem.memRead = true ∧ accessOk cfg exmem.aluResult = true ∧
      memoryStage cfg exmem memwb dmem =
        .ok (passToMemWb exmem (dmem.readWord (4 * wordIndex exmem.aluResult)), dmem)) ∨
    (exmem.memWrite = false ∧ exmem.memRead = true ∧ accessOk cfg exmem.aluResult = false ∧
      memoryStage cfg exmem memwb dmem = .error (.memFault .load exmem.aluResult)) ∨
    (exmem.memWrite = false ∧ exmem.memRead = false ∧
      memoryStage cfg exmem memwb dmem = .ok (passToMemWb exmem 0, dmem)) := by
  unfold memoryStage
  cases hw : exmem.memWrite
  · cases hr : exmem.memRead
    · simp
    · rcases memRead_cases cfg dmem exmem.aluResult with ⟨ha, he⟩ | ⟨ha, he⟩ <;> simp [ha, he]
  · rcases memWrite_cases cfg dmem exmem.aluResult (storeValue exmem memwb) with ⟨ha, he⟩ | ⟨ha, he⟩ <;>
      simp [ha, he]

/-- Where the access in the MEM position is defined, the Memory Stage answers. -/
theorem memoryStage_ok {s : State} (h : s.accessDefined = true) :
    ∃ m, memoryStage s.cfg s.exmem s.memwb s.dmem = .ok m := by
  have hd : s.exmem.memRead = true ∨ s.exmem.memWrite = true → accessOk s.cfg s.exmem.aluResult = true := by
    unfold State.accessDefined at h
    rintro (h' | h') <;> simpa [h'] using h
  rcases memoryStage_cases s.cfg s.exmem s.memwb s.dmem with
    ⟨-, -, he⟩ | ⟨hw, ha, -⟩ | ⟨-, -, -, he⟩ | ⟨-, hr, ha, -⟩ | ⟨-, -, he⟩
  · exact ⟨_, he⟩
  · simp [hd (.inr hw)] at ha
  · exact ⟨_, he⟩
  · simp [hd (.inl hr)] at ha
  · exact ⟨_, he⟩

/-- Where the Memory Stage answers, the access is defined. -/
theorem accessDefined_of_ok {s : State} {m : MemWb × Memory}
    (h : memoryStage s.cfg s.exmem s.memwb s.dmem = .ok m) : s.accessDefined = true := by
  unfold State.accessDefined
  rcases memoryStage_cases s.cfg s.exmem s.memwb s.dmem with
    ⟨-, ha, -⟩ | ⟨-, -, he⟩ | ⟨-, -, ha, -⟩ | ⟨-, -, -, he⟩ | ⟨hw, hr, -⟩
  · simp [ha]
  · simp [he] at h
  · simp [ha]
  · simp [he] at h
  · simp [hw, hr]

/-- The latch the Memory Stage makes is the EX/MEM latch with a memory result. -/
theorem memoryStage_latch {cfg : Config} {exmem : ExMem} {memwb : MemWb} {dmem : Memory} {m : MemWb × Memory}
    (h : memoryStage cfg exmem memwb dmem = .ok m) : m.1 = passToMemWb exmem m.1.memResult := by
  rcases memoryStage_cases cfg exmem memwb dmem with
    ⟨-, -, he⟩ | ⟨-, -, he⟩ | ⟨-, -, -, he⟩ | ⟨-, -, -, he⟩ | ⟨-, -, he⟩ <;>
    simp only [he, Except.ok.injEq, reduceCtorEq] at h <;> subst h <;> rfl

/-- The data memory keeps its canonical form through the Memory Stage. -/
theorem memoryStage_wf {cfg : Config} {exmem : ExMem} {memwb : MemWb} {dmem : Memory} {m : MemWb × Memory}
    (h : memoryStage cfg exmem memwb dmem = .ok m) (hw : dmem.wf) : m.2.wf := by
  rcases memoryStage_cases cfg exmem memwb dmem with
    ⟨-, -, he⟩ | ⟨-, -, he⟩ | ⟨-, -, -, he⟩ | ⟨-, -, -, he⟩ | ⟨-, -, he⟩ <;>
    simp only [he, Except.ok.injEq, reduceCtorEq] at h <;> subst h
  · exact Memory.writeWord_wf hw _ _
  · exact hw
  · exact hw

/-! ### The cycle -/

/-- What a cycle can do (rules R64, R83, R124): fault, refuse, or end. -/
theorem cycle_cases (w : Word) (f : Fields) (b : Bundle) (s : State) :
    (∃ e, memoryStage s.cfg s.exmem s.memwb s.dmem = .error e ∧ cycle w f b s = .fault e) ∨
    (∃ m, memoryStage s.cfg s.exmem s.memwb s.dmem = .ok m ∧ b.refused s.cfg = true ∧
      cycle w f b s = .refused (.uncertainEncoding s.pc w)) ∨
    (∃ m, memoryStage s.cfg s.exmem s.memwb s.dmem = .ok m ∧ b.refused s.cfg = false ∧
      cycle w f b s = .next (s.endOfCycle f b m)) := by
  unfold cycle
  cases hm : memoryStage s.cfg s.exmem s.memwb s.dmem with
  | error e => exact .inl ⟨e, rfl, rfl⟩
  | ok m => cases hb : b.refused s.cfg <;> simp [hb]

/-- A cycle answers a next state exactly when the Memory Stage answers and the word is not refused. -/
theorem cycle_next_iff {w : Word} {f : Fields} {b : Bundle} {s t : State} :
    cycle w f b s = .next t ↔ b.refused s.cfg = false ∧
      ∃ m, memoryStage s.cfg s.exmem s.memwb s.dmem = .ok m ∧ t = s.endOfCycle f b m := by
  rcases cycle_cases w f b s with ⟨e, hm, hc⟩ | ⟨m, hm, hb, hc⟩ | ⟨m, hm, hb, hc⟩
  · simp [hm, hc]
  · simp [hb, hc]
  · simp only [hm, hb, hc, Host.Outcome.next.injEq, Except.ok.injEq, exists_eq_left', true_and]
    exact eq_comm

/-- The bundle each instruction's meaning names (rules R79, R81, R83). -/
def bundleFor : Instr → Bundle
  | .add .. => .fills rowAdd
  | .sub .. => .fills rowSub
  | .and .. => .fills rowAnd
  | .or .. => .fills rowOr
  | .xor .. => .fills rowXor
  | .nor .. => .fills rowNor
  | .slt .. => .fills rowSlt
  | .j .. => .clears
  | .beq .. => .clears
  | .bne .. => .clears
  | .addi .. => .fills rowAddi
  | .slti .. => .fills rowSlti
  | .andi .. => .fills rowAndi
  | .ori .. => .fills rowOri
  | .xori .. => .fills rowXori
  | .lui .. => .fills rowLui
  | .lw .. => .fills rowLw
  | .sw .. => .fills rowSw
  | .addu .. => .uncertain rowAdd
  | .subu .. => .uncertain rowSub
  | .sltu .. => .uncertain rowSlt
  | .addiu .. => .uncertain rowAddi
  | .sltiu .. => .uncertain rowSlti
  | .unsupported .. => .clears

/-- The control row an instruction fills the ID/EX latch with, if it does. -/
abbrev rowOf (cfg : Config) (i : Instr) : Option Control := (bundleFor i).row cfg

/-- Every instruction is one cycle with its fields and its bundle. -/
theorem exec_eq_cycle (i : Instr) (s : State) : exec i s = cycle (encode i) i.fields (bundleFor i) s := by
  cases i <;> rfl

/-- The instructions refused are the uncertain encodings under `refuse`. -/
theorem bundleFor_refused (cfg : Config) (i : Instr) : (bundleFor i).refused cfg = refuses cfg i := by
  cases i <;> rfl

/-- A refused instruction: the fault of the MEM position if there is one, else the refusal (rules R121, R124). -/
theorem exec_of_refuses {i : Instr} {s : State} (h : refuses s.cfg i = true) :
    exec i s = match memoryStage s.cfg s.exmem s.memwb s.dmem with
      | .error e => .fault e
      | .ok _ => .refused (.uncertainEncoding s.pc (encode i)) := by
  rw [← bundleFor_refused] at h
  rw [exec_eq_cycle]
  rcases cycle_cases (encode i) i.fields (bundleFor i) s with ⟨e, hm, hc⟩ | ⟨m, hm, -, hc⟩ | ⟨m, -, hb, -⟩
  · simp [hm, hc]
  · simp [hm, hc]
  · simp [hb] at h

/-- What a next state is: the end of the cycle of the instruction's fields and bundle. -/
theorem exec_next {i : Instr} {s t : State} (h : exec i s = .next t) :
    refuses s.cfg i = false ∧
      ∃ m, memoryStage s.cfg s.exmem s.memwb s.dmem = .ok m ∧ t = s.endOfCycle i.fields (bundleFor i) m := by
  rw [exec_eq_cycle, cycle_next_iff, bundleFor_refused] at h
  exact h

/-- An instruction that is not refused ends its cycle wherever the Memory Stage answers. -/
theorem exec_of_ok {i : Instr} {s : State} {m : MemWb × Memory} (hr : refuses s.cfg i = false)
    (hm : memoryStage s.cfg s.exmem s.memwb s.dmem = .ok m) :
    exec i s = .next (s.endOfCycle i.fields (bundleFor i) m) := by
  rw [exec_eq_cycle]
  exact cycle_next_iff.2 ⟨bundleFor_refused s.cfg i ▸ hr, m, hm, rfl⟩

/-- When an instruction's cycle completes: the access in the MEM position is defined and the word is not refused. -/
theorem exec_completes {i : Instr} {s : State} (ha : s.accessDefined = true) (hr : refuses s.cfg i = false) :
    ∃ m, memoryStage s.cfg s.exmem s.memwb s.dmem = .ok m ∧
      exec i s = .next (s.endOfCycle i.fields (bundleFor i) m) := by
  obtain ⟨m, hm⟩ := memoryStage_ok ha
  exact ⟨m, hm, exec_of_ok hr hm⟩

/-- An idle pipeline has no access in the MEM position. -/
theorem accessDefined_of_idle {s : State} (h : s.idle = true) : s.accessDefined = true := by
  simp only [State.idle, ExMem.idle, Bool.and_eq_true, Bool.not_eq_true'] at h
  simp [State.accessDefined, h.1.2.1.2, h.1.2.2]

/-! ### The rows an instruction can take -/

/-- The row a bundle fills the latch with is the one it names. -/
theorem Bundle.row_eq_some {cfg : Config} {b : Bundle} {c : Control} (h : b.row cfg = some c) :
    b = .fills c ∨ b = .uncertain c := by
  cases b with
  | fills r => exact .inl (congrArg _ (Option.some.inj h))
  | clears => cases h
  | uncertain r =>
    refine .inr (congrArg _ ?_)
    unfold Bundle.row at h
    cases hu : cfg.uncertainOps <;> simp_all

/-- Every row is one of the truth table's. -/
theorem rowOf_mem_controlRows {cfg : Config} {i : Instr} {c : Control} (h : rowOf cfg i = some c) :
    c ∈ controlRows := by
  rcases Bundle.row_eq_some h with h | h <;> cases i <;> cases h <;> decide

/-- The one row that stores is SW's. -/
theorem rowOf_memWrite {cfg : Config} {i : Instr} {c : Control} (h : rowOf cfg i = some c)
    (hw : c.memWrite = true) : i.fields.opcode = 43 ∧ c.aluSrc = .signExt := by
  rcases Bundle.row_eq_some h with h | h <;> cases i <;> cases h <;> first | exact ⟨rfl, rfl⟩ | cases hw

/-- The load-use classes of rule R71 against the operands a row uses: LUI uses none, opcode 0 both registers, an
immediate form `rs`. -/
theorem rowOf_class {cfg : Config} {i : Instr} {c : Control} (h : rowOf cfg i = some c) :
    c.extra1 = .lui ∨ (i.fields.opcode = 0 ∧ c.aluSrc = .reg) ∨
      (((8 ≤ i.fields.opcode.toNat ∧ i.fields.opcode.toNat ≤ 14) ∨ 32 ≤ i.fields.opcode.toNat) ∧ c.aluSrc ≠ .reg) := by
  rcases Bundle.row_eq_some h with h | h <;> cases i <;> cases h <;>
    first
      | exact .inl rfl
      | exact .inr (.inl ⟨rfl, rfl⟩)
      | exact .inr (.inr ⟨by simp [Instr.fields, fieldsI], by decide⟩)

/-- Both forms of one immediate (rule R160). -/
theorem fields_imm32 (i : Instr) : i.fields.imm32 = sext32 i.fields.imm16 := by cases i <;> rfl

/-! ### The step -/

/-- What a step can do. -/
theorem step_cases (s : State) :
    (s.status = .ended ∧ step s = .next s) ∨ (s.status = .running ∧ step s = exec (decode s.fetchWord) s) := by
  unfold step
  cases s.status <;> simp

end Sys2Proof.Machine
end

