-- ==== Sys2Proof/Laws/Decode.lean ====
section
/-! SUPPORT. The laws of slicing and assembling: the bits of an assembled word, the fields it is sliced into, and what
a row of the opcode table says of the fields of a word. -/

namespace Sys2Proof

/-- The bits of an assembled R-format word (rule R161). -/
theorem wordR_getLsbD (rs rt rd : RegIdx) (shamt : BitVec 5) (funct : BitVec 6) (i : Nat) :
    (wordR rs rt rd shamt funct).getLsbD i =
      if i < 6 then funct.getLsbD i else if i < 11 then shamt.getLsbD (i - 6)
      else if i < 16 then rd.getLsbD (i - 11) else if i < 21 then rt.getLsbD (i - 16)
      else if i < 26 then rs.getLsbD (i - 21) else false := by
  unfold wordR
  simp only [BitVec.getLsbD_append]
  simp only [Nat.sub_sub, Nat.reduceAdd, BitVec.ofNat_eq_ofNat, BitVec.getLsbD_zero]
  split_ifs <;> first | rfl | omega

/-- The bits of an assembled I-format word (rule R162). -/
theorem wordI_getLsbD (opcode : BitVec 6) (rs rt : RegIdx) (imm : Imm16) (i : Nat) :
    (wordI opcode rs rt imm).getLsbD i =
      if i < 16 then imm.getLsbD i else if i < 21 then rt.getLsbD (i - 16)
      else if i < 26 then rs.getLsbD (i - 21) else opcode.getLsbD (i - 26) := by
  unfold wordI
  simp only [BitVec.getLsbD_append]
  simp only [Nat.sub_sub, Nat.reduceAdd]
  split_ifs <;> first | rfl | omega

/-- The bits of an assembled J-format word (rule R163). -/
theorem wordJ_getLsbD (address : BitVec 26) (i : Nat) :
    (wordJ address).getLsbD i = if i < 26 then address.getLsbD i else (2#6).getLsbD (i - 26) := by
  unfold wordJ
  simp only [BitVec.getLsbD_append, BitVec.ofNat_eq_ofNat]

theorem imm16R_getLsbD (rd : RegIdx) (shamt : BitVec 5) (funct : BitVec 6) (i : Nat) :
    (rd ++ shamt ++ funct : Imm16).getLsbD i =
      if i < 6 then funct.getLsbD i else if i < 11 then shamt.getLsbD (i - 6) else rd.getLsbD (i - 11) := by
  simp only [BitVec.getLsbD_append]
  simp only [Nat.sub_sub, Nat.reduceAdd]
  split_ifs <;> first | rfl | omega

theorem addressR_getLsbD (rs rt rd : RegIdx) (shamt : BitVec 5) (funct : BitVec 6) (i : Nat) :
    (rs ++ rt ++ rd ++ shamt ++ funct : BitVec 26).getLsbD i =
      if i < 6 then funct.getLsbD i else if i < 11 then shamt.getLsbD (i - 6)
      else if i < 16 then rd.getLsbD (i - 11) else if i < 21 then rt.getLsbD (i - 16)
      else rs.getLsbD (i - 21) := by
  simp only [BitVec.getLsbD_append]
  simp only [Nat.sub_sub, Nat.reduceAdd]
  split_ifs <;> first | rfl | omega

theorem addressI_getLsbD (rs rt : RegIdx) (imm : Imm16) (i : Nat) :
    (rs ++ rt ++ imm : BitVec 26).getLsbD i =
      if i < 16 then imm.getLsbD i else if i < 21 then rt.getLsbD (i - 16) else rs.getLsbD (i - 21) := by
  simp only [BitVec.getLsbD_append]
  simp only [Nat.sub_sub, Nat.reduceAdd]
  split_ifs <;> first | rfl | omega

/-- A slice is another value when their bits agree. -/
theorem extract_eq {n : Nat} {w : Word} {start : Nat} {v : BitVec n}
    (h : ∀ i < n, w.getLsbD (start + i) = v.getLsbD i) : w.extractLsb' start n = v := by
  apply BitVec.eq_of_getLsbD_eq
  intro i hi
  rw [BitVec.getLsbD_extractLsb', h i hi]
  simp [hi]

/-- The fields of an assembled R-format word. -/
theorem sliceWord_wordR (rs rt rd : RegIdx) (shamt : BitVec 5) (funct : BitVec 6) :
    sliceWord (wordR rs rt rd shamt funct) = fieldsR rs rt rd shamt funct := by
  have himm : (wordR rs rt rd shamt funct).extractLsb' 0 16 = (rd ++ shamt ++ funct : Imm16) := by
    refine extract_eq fun i hi => ?_
    rw [wordR_getLsbD, imm16R_getLsbD]
    split_ifs <;> first | omega | simp
  unfold sliceWord fieldsR
  rw [himm]
  congr 1
  all_goals
    refine extract_eq fun i hi => ?_
    rw [wordR_getLsbD]
    try rw [addressR_getLsbD]
    split_ifs <;> first | omega | simp

/-- The fields of an assembled I-format word. -/
theorem sliceWord_wordI (opcode : BitVec 6) (rs rt : RegIdx) (imm : Imm16) :
    sliceWord (wordI opcode rs rt imm) = fieldsI opcode rs rt imm := by
  have himm : (wordI opcode rs rt imm).extractLsb' 0 16 = imm := by
    refine extract_eq fun i hi => ?_
    rw [wordI_getLsbD, if_pos (by omega), Nat.zero_add]
  unfold sliceWord fieldsI
  rw [himm]
  congr 1
  all_goals
    refine extract_eq fun i hi => ?_
    rw [wordI_getLsbD]
    try rw [addressI_getLsbD]
    split_ifs <;> first | omega | simp [hi]

/-- The fields of an assembled J-format word. -/
theorem sliceWord_wordJ (address : BitVec 26) : sliceWord (wordJ address) = fieldsJ address := by
  have himm : (wordJ address).extractLsb' 0 16 = address.extractLsb' 0 16 := by
    refine extract_eq fun i hi => ?_
    rw [wordJ_getLsbD, if_pos (by omega)]
    simp [hi]
  unfold sliceWord fieldsJ
  rw [himm]
  congr 1
  all_goals
    refine extract_eq fun i hi => ?_
    rw [wordJ_getLsbD]
    split_ifs <;> first | omega | simp [hi]

/-! ### The rows of the opcode table -/

/-- The bits of an opcode mask. -/
theorem opcodeMask_getLsbD : ∀ i < 32, (0xFC000000#32).getLsbD i = decide (26 ≤ i) := by decide

/-- The bits of an opcode-and-funct mask. -/
theorem functMask_getLsbD : ∀ i < 32, (0xFC00003F#32).getLsbD i = (decide (26 ≤ i) || decide (i < 6)) := by decide

/-- A word belongs to a row of mask `0xFC000000` exactly when its opcode is the row's. -/
theorem claims_opcode (w : Word) (op : BitVec 6) :
    (OpcodeRow.mk 0xFC000000#32 (op.setWidth 32 <<< 26)).claims w = true ↔ (sliceWord w).opcode = op := by
  simp only [OpcodeRow.claims, beq_iff_eq, sliceWord]
  constructor
  · intro h
    refine extract_eq fun i hi => ?_
    have := congrArg (fun x => BitVec.getLsbD x (26 + i)) h
    rw [BitVec.getLsbD_and, opcodeMask_getLsbD (26 + i) (by omega)] at this
    simpa [show 26 + i < 32 by omega] using this
  · intro h
    apply BitVec.eq_of_getLsbD_eq
    intro i hi
    subst h
    rw [BitVec.getLsbD_and, opcodeMask_getLsbD i hi]
    by_cases h26 : 26 ≤ i
    · simp [h26, hi, show ¬ i < 26 by omega, show i - 26 < 6 by omega, show 26 + (i - 26) = i by omega]
    · simp [h26, show i < 26 by omega]

/-- A word belongs to a row of mask `0xFC00003F` exactly when its opcode is 0 and its funct the row's. -/
theorem claims_funct (w : Word) (funct : BitVec 6) :
    (OpcodeRow.mk 0xFC00003F#32 (funct.setWidth 32)).claims w = true ↔
      ((sliceWord w).opcode = 0 ∧ (sliceWord w).funct = funct) := by
  simp only [OpcodeRow.claims, beq_iff_eq, sliceWord]
  constructor
  · intro h
    constructor
    · refine extract_eq fun i hi => ?_
      have := congrArg (fun x => BitVec.getLsbD x (26 + i)) h
      rw [BitVec.getLsbD_and, functMask_getLsbD (26 + i) (by omega)] at this
      simpa [show 26 + i < 32 by omega, BitVec.getLsbD_of_ge funct (26 + i) (by omega)] using this
    · refine extract_eq fun i hi => ?_
      have := congrArg (fun x => BitVec.getLsbD x i) h
      rw [BitVec.getLsbD_and, functMask_getLsbD i (by omega)] at this
      simpa [hi, show i < 32 by omega] using this
  · rintro ⟨h0, h⟩
    apply BitVec.eq_of_getLsbD_eq
    intro i hi
    subst h
    rw [BitVec.getLsbD_and, functMask_getLsbD i hi]
    by_cases h26 : 26 ≤ i
    · have := congrArg (fun x => BitVec.getLsbD x (i - 26)) h0
      simp [show i - 26 < 6 by omega, show 26 + (i - 26) = i by omega] at this
      simp [h26, this, show ¬ i < 6 by omega]
    · by_cases h6 : i < 6
      · simp [h6, show i < 32 by omega]
      · simp [h26, h6]

/-- The functs of rules R165 and R167. -/
abbrev listedFuncts : List (BitVec 6) :=
  [0x20#6, 0x21#6, 0x22#6, 0x23#6, 0x24#6, 0x25#6, 0x26#6, 0x27#6, 0x2A#6, 0x2B#6]

/-- The opcodes of rules R165 to R167 other than 0. -/
abbrev listedOpcodes : List (BitVec 6) :=
  [2#6, 4#6, 5#6, 8#6, 9#6, 10#6, 11#6, 12#6, 13#6, 14#6, 15#6, 35#6, 43#6]

/-- An unsupported word is well-formed exactly when its opcode is not listed and, under opcode 0, its funct is not. -/
theorem wellFormed_unsupported_iff (w : Word) :
    (Instr.unsupported w).wellFormed = true ↔
      (∀ n ∈ listedOpcodes, (sliceWord w).opcode ≠ n) ∧
        ((sliceWord w).opcode = 0 → ∀ n ∈ listedFuncts, (sliceWord w).funct ≠ n) := by
  have hrow : ∀ r ∈ functRows ++ opcodeRows,
      (∃ n ∈ listedFuncts, r = OpcodeRow.mk 0xFC00003F#32 (n.setWidth 32)) ∨
        ∃ n ∈ listedOpcodes, r = OpcodeRow.mk 0xFC000000#32 (n.setWidth 32 <<< 26) := by decide
  have hfunct : ∀ n ∈ listedFuncts, OpcodeRow.mk 0xFC00003F#32 (n.setWidth 32) ∈ functRows ++ opcodeRows := by decide
  have hopcode : ∀ n ∈ listedOpcodes, OpcodeRow.mk 0xFC000000#32 (n.setWidth 32 <<< 26) ∈ functRows ++ opcodeRows := by
    decide
  simp only [Instr.wellFormed, List.all_eq_true, Bool.not_eq_true']
  constructor
  · intro h
    refine ⟨fun n hn he => ?_, fun h0 n hn he => ?_⟩
    · have := h _ (hopcode n hn)
      rw [(claims_opcode w n).2 he] at this
      exact Bool.noConfusion this
    · have := h _ (hfunct n hn)
      rw [(claims_funct w n).2 ⟨h0, he⟩] at this
      exact Bool.noConfusion this
  · rintro ⟨h1, h2⟩ r hr
    rw [Bool.eq_false_iff]
    intro hc
    rcases hrow r hr with ⟨n, hn, rfl⟩ | ⟨n, hn, rfl⟩
    · obtain ⟨h0, he⟩ := (claims_funct w n).1 hc
      exact h2 h0 n hn he
    · exact h1 n hn ((claims_opcode w n).1 hc)

/-! ### A word from its fields -/

/-- The six high bits of a word, from its opcode. -/
theorem getLsbD_of_opcode {w : Word} {op : BitVec 6} (h : (sliceWord w).opcode = op) {i : Nat} (h26 : 26 ≤ i)
    (h32 : i < 32) : w.getLsbD i = op.getLsbD (i - 26) := by
  subst h
  simp [sliceWord, show i - 26 < 6 by omega, show 26 + (i - 26) = i by omega]

/-- A word of opcode 0 is assembled from its fields as an R-format word. -/
theorem wordR_sliceWord {w : Word} {funct : BitVec 6} (h0 : (sliceWord w).opcode = 0)
    (hf : (sliceWord w).funct = funct) :
    wordR (sliceWord w).rs (sliceWord w).rt (sliceWord w).rd (sliceWord w).shamt funct = w := by
  subst hf
  apply BitVec.eq_of_getLsbD_eq
  intro i hi
  rw [wordR_getLsbD]
  simp only [sliceWord, BitVec.getLsbD_extractLsb']
  split_ifs
  · simp [*]
  · simp [show i - 6 < 5 by omega, show 6 + (i - 6) = i by omega]
  · simp [show i - 11 < 5 by omega, show 11 + (i - 11) = i by omega]
  · simp [show i - 16 < 5 by omega, show 16 + (i - 16) = i by omega]
  · simp [show i - 21 < 5 by omega, show 21 + (i - 21) = i by omega]
  · rw [getLsbD_of_opcode h0 (by omega) hi]; simp

/-- A word is assembled from its fields as an I-format word of its opcode. -/
theorem wordI_sliceWord {w : Word} {op : BitVec 6} (h0 : (sliceWord w).opcode = op) :
    wordI op (sliceWord w).rs (sliceWord w).rt (sliceWord w).imm16 = w := by
  apply BitVec.eq_of_getLsbD_eq
  intro i hi
  rw [wordI_getLsbD]
  simp only [sliceWord, BitVec.getLsbD_extractLsb']
  split_ifs
  · simp [*]
  · simp [show i - 16 < 5 by omega, show 16 + (i - 16) = i by omega]
  · simp [show i - 21 < 5 by omega, show 21 + (i - 21) = i by omega]
  · rw [getLsbD_of_opcode h0 (by omega) hi]

/-- A word of opcode 2 is assembled from its address as a J-format word. -/
theorem wordJ_sliceWord {w : Word} (h0 : (sliceWord w).opcode = 2) : wordJ (sliceWord w).address = w := by
  apply BitVec.eq_of_getLsbD_eq
  intro i hi
  rw [wordJ_getLsbD]
  simp only [sliceWord, BitVec.getLsbD_extractLsb']
  split_ifs
  · simp [*]
  · rw [getLsbD_of_opcode h0 (by omega) hi]; rfl

/-! ### What the dispatch can give -/

/-- What the dispatch on `funct` can give. -/
theorem decodeFunct_cases {motive : Instr → Prop} (w : Word) (f : Fields)
    (add : f.funct = 0x20 → motive (.add f.rs f.rt f.rd f.shamt))
    (addu : f.funct = 0x21 → motive (.addu f.rs f.rt f.rd f.shamt))
    (sub : f.funct = 0x22 → motive (.sub f.rs f.rt f.rd f.shamt))
    (subu : f.funct = 0x23 → motive (.subu f.rs f.rt f.rd f.shamt))
    (and : f.funct = 0x24 → motive (.and f.rs f.rt f.rd f.shamt))
    (or : f.funct = 0x25 → motive (.or f.rs f.rt f.rd f.shamt))
    (xor : f.funct = 0x26 → motive (.xor f.rs f.rt f.rd f.shamt))
    (nor : f.funct = 0x27 → motive (.nor f.rs f.rt f.rd f.shamt))
    (slt : f.funct = 0x2A → motive (.slt f.rs f.rt f.rd f.shamt))
    (sltu : f.funct = 0x2B → motive (.sltu f.rs f.rt f.rd f.shamt))
    (unsupported : (∀ n ∈ listedFuncts, f.funct ≠ n) → motive (.unsupported w)) :
    motive (decodeFunct w f) :=
  iteInduction add fun h0 => iteInduction addu fun h1 => iteInduction sub fun h2 => iteInduction subu fun h3 =>
    iteInduction and fun h4 => iteInduction or fun h5 => iteInduction xor fun h6 => iteInduction nor fun h7 =>
    iteInduction slt fun h8 => iteInduction sltu fun h9 => unsupported (by
      simp only [List.forall_mem_cons, List.not_mem_nil, false_implies, implies_true, and_true]
      exact ⟨h0, h1, h2, h3, h4, h5, h6, h7, h8, h9⟩)

/-- What the dispatch on `opcode` can give. -/
theorem decodeOpcode_cases {motive : Instr → Prop} (w : Word) (f : Fields)
    (funct : f.opcode = 0 → motive (decodeFunct w f))
    (j : f.opcode = 2 → motive (.j f.address))
    (beq : f.opcode = 4 → motive (.beq f.rs f.rt f.imm16))
    (bne : f.opcode = 5 → motive (.bne f.rs f.rt f.imm16))
    (addi : f.opcode = 8 → motive (.addi f.rs f.rt f.imm16))
    (addiu : f.opcode = 9 → motive (.addiu f.rs f.rt f.imm16))
    (slti : f.opcode = 10 → motive (.slti f.rs f.rt f.imm16))
    (sltiu : f.opcode = 11 → motive (.sltiu f.rs f.rt f.imm16))
    (andi : f.opcode = 12 → motive (.andi f.rs f.rt f.imm16))
    (ori : f.opcode = 13 → motive (.ori f.rs f.rt f.imm16))
    (xori : f.opcode = 14 → motive (.xori f.rs f.rt f.imm16))
    (lui : f.opcode = 15 → motive (.lui f.rs f.rt f.imm16))
    (lw : f.opcode = 35 → motive (.lw f.rs f.rt f.imm16))
    (sw : f.opcode = 43 → motive (.sw f.rs f.rt f.imm16))
    (unsupported : (∀ n ∈ 0 :: listedOpcodes, f.opcode ≠ n) → motive (.unsupported w)) :
    motive (decodeOpcode w f) :=
  iteInduction funct fun h0 => iteInduction j fun h1 => iteInduction beq fun h2 => iteInduction bne fun h3 =>
    iteInduction addi fun h4 => iteInduction addiu fun h5 => iteInduction slti fun h6 => iteInduction sltiu fun h7 =>
    iteInduction andi fun h8 => iteInduction ori fun h9 => iteInduction xori fun h10 => iteInduction lui fun h11 =>
    iteInduction lw fun h12 => iteInduction sw fun h13 => unsupported (by
      simp only [List.forall_mem_cons, List.not_mem_nil, false_implies, implies_true, and_true]
      exact ⟨h0, h1, h2, h3, h4, h5, h6, h7, h8, h9, h10, h11, h12, h13⟩)

end Sys2Proof
end

