-- ==== Sys2Proof/Laws/Dispatch.lean ====
section
/-! SUPPORT. The Control/Decode Stage's own dispatch on `opcode` and `funct` (rules R70, R78) against the bundle each
instruction's meaning names: they are one cycle. -/

namespace Sys2Proof.Machine

/-- Under opcode 0, a `funct` outside the listed ones clears the latch (rule R81). -/
theorem bundleOfFunct_clears {funct : BitVec 6} (h : ∀ n ∈ listedFuncts, funct ≠ n) :
    bundleOfFunct funct = .clears := by
  simp only [listedFuncts, List.forall_mem_cons] at h
  simp [bundleOfFunct, *]

/-- A word that no other row of the opcode table claims clears the latch (rule R81). -/
theorem bundleOf_unsupported {w : Word} (h : (Instr.unsupported w).wellFormed = true) :
    bundleOf (sliceWord w) = .clears := by
  obtain ⟨ho, hf⟩ := (wellFormed_unsupported_iff w).1 h
  unfold bundleOf
  by_cases h0 : (sliceWord w).opcode = 0
  · rw [if_pos h0, bundleOfFunct_clears (hf h0)]
  · rw [if_neg h0, if_neg (ho 8 (by decide)), if_neg (ho 9 (by decide)), if_neg (ho 10 (by decide)),
      if_neg (ho 11 (by decide)), if_neg (ho 12 (by decide)), if_neg (ho 13 (by decide)), if_neg (ho 14 (by decide)),
      if_neg (ho 15 (by decide)), if_neg (ho 35 (by decide)), if_neg (ho 43 (by decide))]

/-- The dispatch on a well-formed instruction's `opcode` and `funct` finds the bundle its meaning names. -/
theorem bundleOf_fields {i : Instr} (h : i.wellFormed = true) : bundleOf i.fields = bundleFor i := by
  cases i with
  | unsupported w => exact bundleOf_unsupported h
  | _ => rfl

/-- A well-formed instruction is the cycle of its fields alone, dispatched by the stage itself. -/
theorem exec_eq_fieldsCycle {i : Instr} (h : i.wellFormed = true) (s : State) :
    exec i s = cycle (encode i) i.fields (bundleOf i.fields) s := by
  rw [exec_eq_cycle, bundleOf_fields h]

/-- What the stage puts out in that cycle is `decode_stage` of rule R70 on the signals of rule R60. -/
theorem State.decodeOutput_bundleOf (s : State) (f : Fields) :
    s.decodeOutput f (bundleOf f) =
      decodeStage s.cfg (needsStall s.cfg f s.idex s.exmem) f (s.pc + 4) (s.readFile.read f.rs)
        (s.readFile.read f.rt) := rfl

end Sys2Proof.Machine
end

