-- ==== Sys2Proof/Laws/Passage.lean ====
section
/-! SUPPORT. The passage of one instruction through an otherwise idle pipeline, in two halves: FD and EX, then MEM and
WB (rule R61). -/

namespace Sys2Proof.Machine

theorem idle_iff (s : State) : s.idle = true ↔
    (s.idex.regWrite = false ∧ s.idex.memRead = false ∧ s.idex.memWrite = false) ∧
      (s.exmem.regWrite = false ∧ s.exmem.memRead = false ∧ s.exmem.memWrite = false) ∧
        s.memwb.regWrite = false := by
  simp [State.idle, IdEx.idle, ExMem.idle, and_assoc]

@[simp] theorem andThen_next (s : State) (k : State → Host.Outcome State Fault Refusal) :
    andThen (.next s) k = k s := rfl

theorem andThen_assoc (o : Host.Outcome State Fault Refusal) (f g : State → Host.Outcome State Fault Refusal) :
    andThen (andThen o f) g = andThen o fun s => andThen (f s) g := by
  cases o <;> rfl

/-- With nothing in the MEM position that touches memory, the cycle of an instruction that is not refused. -/
theorem exec_of_mem_idle {i : Instr} {s : State} (hi : refuses s.cfg i = false) (hr : s.exmem.memRead = false)
    (hw : s.exmem.memWrite = false) :
    exec i s = .next (s.endOfCycle i.fields (bundleFor i) (passToMemWb s.exmem 0, s.dmem)) := by
  exact exec_of_ok hi (by simp [memoryStage, hr, hw])

/-- A no-op leaves the bubble, stalled or not (rules R80, R81). -/
theorem noOp_idex (s : State) (m : MemWb × Memory) :
    (s.endOfCycle noOp.fields (bundleFor noOp) m).idex = .zero := by
  rw [State.endOfCycle_idex]
  split_ifs <;> rfl

/-- The second ALU input of a latch when nothing is forwarded (rule R86). -/
def IdEx.ownInput2 (l : IdEx) : Word :=
  match l.aluSrc with
  | .reg => l.rtVal
  | .signExt => l.imm32
  | .zeroExt => zext32 l.imm16

/-- FD and EX: from an idle pipeline, the instruction's result on the register file's values reaches EX/MEM. -/
theorem firstTwoCycles {i : Instr} {s : State} (hi : s.idle = true) (hr : refuses s.cfg i = false) :
    ∃ t, andThen (exec i s) (exec noOp) = .next t ∧ t.idex = .zero ∧
      t.exmem = (let l := decodeLatch i.fields (rowOf s.cfg i) (s.rf.read i.fields.rs) (s.rf.read i.fields.rt)
        execute s.cfg.sltMode l l.rsVal l.ownInput2) ∧
      t.memwb.regWrite = false ∧ t.rf = s.rf ∧ t.dmem = s.dmem ∧ t.imem = s.imem ∧ t.imageWords = s.imageWords ∧
      t.cfg = s.cfg := by
  obtain ⟨⟨a1, a2, a3⟩, ⟨b1, b2, b3⟩, c1⟩ := (idle_iff s).1 hi
  have hwb : writeBack s.memwb s.rf = s.rf := by simp [writeBack, c1]
  have hread : s.readFile = s.rf := by simp [State.readFile, hwb]
  rw [exec_of_mem_idle hr b2 b3, andThen_next]
  have f1 : (s.endOfCycle i.fields (bundleFor i) (passToMemWb s.exmem 0, s.dmem)).idex =
      decodeLatch i.fields (rowOf s.cfg i) (s.rf.read i.fields.rs) (s.rf.read i.fields.rt) := by
    rw [State.endOfCycle_idex, hread, if_neg]
    simp [needsStall, storeHazard, loadUse, a2, match2, b1]
  have f2 : (s.endOfCycle i.fields (bundleFor i) (passToMemWb s.exmem 0, s.dmem)).exmem.regWrite = false := a1
  have f3 : (s.endOfCycle i.fields (bundleFor i) (passToMemWb s.exmem 0, s.dmem)).memwb.regWrite = false := b1
  refine ⟨_, exec_of_mem_idle (i := noOp) rfl a2 a3, noOp_idex _ _, ?_, a1, ?_, rfl, rfl, rfl, rfl⟩
  · rw [State.endOfCycle_exmem, f1, State.endOfCycle_cfg]
    dsimp only
    have hf : ∀ r v, forward (s.endOfCycle i.fields (bundleFor i) (passToMemWb s.exmem 0, s.dmem)).exmem
        (s.endOfCycle i.fields (bundleFor i) (passToMemWb s.exmem 0, s.dmem)).memwb r v = v := by
      intro r v
      rw [forward, if_neg (fun h => Bool.noConfusion (f2.symm.trans h.1)),
        if_neg (fun h => Bool.noConfusion (f3.symm.trans h.1))]
    generalize decodeLatch i.fields (rowOf s.cfg i) (s.rf.read i.fields.rs) (s.rf.read i.fields.rt) = l
    congr 1
    · exact hf _ _
    · unfold aluInput2 IdEx.ownInput2
      cases l.aluSrc <;> simp only [hf]
  · rw [State.endOfCycle_rf, writeBack, if_neg (fun h => Bool.noConfusion (f3.symm.trans h))]
    exact hwb

/-- MEM and WB: with nothing behind the instruction in MEM, memory is what the Memory Stage made it, the register file
what the write-back of its latch makes it, and the pipeline is idle. -/
theorem lastTwoCycles {s : State} {m : MemWb × Memory} (h : s.idex = .zero) (h2 : s.memwb.regWrite = false)
    (hm : memoryStage s.cfg s.exmem s.memwb s.dmem = .ok m) :
    ∃ t, andThen (exec noOp s) (exec noOp) = .next t ∧ t.rf = writeBack m.1 s.rf ∧ t.dmem = m.2 ∧ t.imem = s.imem ∧
      t.imageWords = s.imageWords ∧ t.cfg = s.cfg ∧ t.idle = true := by
  have e1 : exec noOp s = .next (s.endOfCycle noOp.fields (bundleFor noOp) m) := exec_of_ok rfl hm
  have f1 := noOp_idex s m
  have f2 : (s.endOfCycle noOp.fields (bundleFor noOp) m).exmem = .zero := by
    rw [State.endOfCycle_exmem, h]; rfl
  rw [e1, andThen_next]
  refine ⟨_, exec_of_mem_idle (i := noOp) rfl (by rw [f2]; rfl) (by rw [f2]; rfl), ?_, rfl, rfl, rfl, rfl, ?_⟩
  · rw [State.endOfCycle_rf, State.endOfCycle_rf, State.endOfCycle_memwb]
    simp [writeBack, h2]
  · rw [idle_iff, noOp_idex, State.endOfCycle_exmem, f1, State.endOfCycle_memwb, f2]
    exact ⟨⟨rfl, rfl, rfl⟩, ⟨rfl, rfl, rfl⟩, rfl⟩

end Sys2Proof.Machine
end

