-- ==== Sys2Proof/Laws/PerInstr.lean ====
section
/-! SUPPORT. Statements made per instruction. `FieldsAgree`: the fields an instruction's meaning uses are those the
decoder slices from its word (rule R160). -/

namespace Sys2Proof.Laws

/-- The fields of the instruction are the slices of its word. -/
def FieldsAgree.Statement (i : Instr) : Prop := sliceWord (encode i) = i.fields

theorem FieldsAgree.add (rs rt rd : RegIdx) (shamt : BitVec 5) : FieldsAgree.Statement (.add rs rt rd shamt) :=
  sliceWord_wordR rs rt rd shamt _

theorem FieldsAgree.sub (rs rt rd : RegIdx) (shamt : BitVec 5) : FieldsAgree.Statement (.sub rs rt rd shamt) :=
  sliceWord_wordR rs rt rd shamt _

theorem FieldsAgree.and (rs rt rd : RegIdx) (shamt : BitVec 5) : FieldsAgree.Statement (.and rs rt rd shamt) :=
  sliceWord_wordR rs rt rd shamt _

theorem FieldsAgree.or (rs rt rd : RegIdx) (shamt : BitVec 5) : FieldsAgree.Statement (.or rs rt rd shamt) :=
  sliceWord_wordR rs rt rd shamt _

theorem FieldsAgree.xor (rs rt rd : RegIdx) (shamt : BitVec 5) : FieldsAgree.Statement (.xor rs rt rd shamt) :=
  sliceWord_wordR rs rt rd shamt _

theorem FieldsAgree.nor (rs rt rd : RegIdx) (shamt : BitVec 5) : FieldsAgree.Statement (.nor rs rt rd shamt) :=
  sliceWord_wordR rs rt rd shamt _

theorem FieldsAgree.slt (rs rt rd : RegIdx) (shamt : BitVec 5) : FieldsAgree.Statement (.slt rs rt rd shamt) :=
  sliceWord_wordR rs rt rd shamt _

theorem FieldsAgree.addu (rs rt rd : RegIdx) (shamt : BitVec 5) : FieldsAgree.Statement (.addu rs rt rd shamt) :=
  sliceWord_wordR rs rt rd shamt _

theorem FieldsAgree.subu (rs rt rd : RegIdx) (shamt : BitVec 5) : FieldsAgree.Statement (.subu rs rt rd shamt) :=
  sliceWord_wordR rs rt rd shamt _

theorem FieldsAgree.sltu (rs rt rd : RegIdx) (shamt : BitVec 5) : FieldsAgree.Statement (.sltu rs rt rd shamt) :=
  sliceWord_wordR rs rt rd shamt _

theorem FieldsAgree.beq (rs rt : RegIdx) (imm : Imm16) : FieldsAgree.Statement (.beq rs rt imm) :=
  sliceWord_wordI _ rs rt imm

theorem FieldsAgree.bne (rs rt : RegIdx) (imm : Imm16) : FieldsAgree.Statement (.bne rs rt imm) :=
  sliceWord_wordI _ rs rt imm

theorem FieldsAgree.addi (rs rt : RegIdx) (imm : Imm16) : FieldsAgree.Statement (.addi rs rt imm) :=
  sliceWord_wordI _ rs rt imm

theorem FieldsAgree.slti (rs rt : RegIdx) (imm : Imm16) : FieldsAgree.Statement (.slti rs rt imm) :=
  sliceWord_wordI _ rs rt imm

theorem FieldsAgree.andi (rs rt : RegIdx) (imm : Imm16) : FieldsAgree.Statement (.andi rs rt imm) :=
  sliceWord_wordI _ rs rt imm

theorem FieldsAgree.ori (rs rt : RegIdx) (imm : Imm16) : FieldsAgree.Statement (.ori rs rt imm) :=
  sliceWord_wordI _ rs rt imm

theorem FieldsAgree.xori (rs rt : RegIdx) (imm : Imm16) : FieldsAgree.Statement (.xori rs rt imm) :=
  sliceWord_wordI _ rs rt imm

theorem FieldsAgree.lui (rs rt : RegIdx) (imm : Imm16) : FieldsAgree.Statement (.lui rs rt imm) :=
  sliceWord_wordI _ rs rt imm

theorem FieldsAgree.lw (rs rt : RegIdx) (imm : Imm16) : FieldsAgree.Statement (.lw rs rt imm) :=
  sliceWord_wordI _ rs rt imm

theorem FieldsAgree.sw (rs rt : RegIdx) (imm : Imm16) : FieldsAgree.Statement (.sw rs rt imm) :=
  sliceWord_wordI _ rs rt imm

theorem FieldsAgree.addiu (rs rt : RegIdx) (imm : Imm16) : FieldsAgree.Statement (.addiu rs rt imm) :=
  sliceWord_wordI _ rs rt imm

theorem FieldsAgree.sltiu (rs rt : RegIdx) (imm : Imm16) : FieldsAgree.Statement (.sltiu rs rt imm) :=
  sliceWord_wordI _ rs rt imm

theorem FieldsAgree.j (address : BitVec 26) : FieldsAgree.Statement (.j address) := sliceWord_wordJ address

theorem FieldsAgree.unsupported (word : Word) : FieldsAgree.Statement (.unsupported word) := rfl

end Sys2Proof.Laws
end

