-- ==== Sys2Proof/Laws/Run.lean ====
section
/-! SUPPORT. What the host's run does at a state, one lemma per case (rules R43, R132, R145). -/

namespace Sys2Proof.Machine

theorem runFrom_of_ended {s : State} (h : s.status = .ended) (n k : Nat) :
    runFrom n k s = .stopped s .ended k := by
  rw [runFrom.eq_def, h]

theorem runFrom_of_fault {s : State} {e : Fault} (h : s.status = .running) (hs : step s = .fault e) (n k : Nat) :
    runFrom n k s = .stopped s (.faulted e) k := by
  rw [runFrom.eq_def, h, hs]

theorem runFrom_of_refused {s : State} {e : Refusal} (h : s.status = .running) (hs : step s = .refused e)
    (n k : Nat) : runFrom n k s = .stopped s (.refused e) k := by
  rw [runFrom.eq_def, h, hs]

theorem runFrom_zero_of_next {s t : State} (h : s.status = .running) (hs : step s = .next t) (k : Nat) :
    runFrom 0 k s = .outOfCycles s := by
  rw [runFrom.eq_def, h, hs]

theorem runFrom_succ_of_next {s t : State} (h : s.status = .running) (hs : step s = .next t) (n k : Nat) :
    runFrom (n + 1) k s = runFrom n (k + 1) t := by
  rw [runFrom.eq_def, h, hs]

/-- A state ends the run, or is running and its step gives the next state. -/
theorem runFrom_cases (s : State) :
    (∃ e, ∀ n k, runFrom n k s = .stopped s e k) ∨
    (s.status = .running ∧ ∃ t, step s = .next t ∧ (∀ k, runFrom 0 k s = .outOfCycles s) ∧
      ∀ n k, runFrom (n + 1) k s = runFrom n (k + 1) t) := by
  cases h : s.status with
  | ended => exact .inl ⟨_, runFrom_of_ended h⟩
  | running =>
    cases hs : step s with
    | fault e => exact .inl ⟨_, runFrom_of_fault h hs⟩
    | refused e => exact .inl ⟨_, runFrom_of_refused h hs⟩
    | next t => exact .inr ⟨rfl, t, rfl, runFrom_zero_of_next h hs, runFrom_succ_of_next h hs⟩

/-- The same outcome with `k` more cycles counted. -/
def RunOutcome.addCycles (k : Nat) : RunOutcome → RunOutcome
  | .stopped s e c => .stopped s e (c + k)
  | .outOfCycles s => .outOfCycles s

/-- Cycles already taken are only counted. -/
theorem runFrom_eq_addCycles (n k : Nat) (s : State) : runFrom n k s = (runFrom n 0 s).addCycles k := by
  induction n generalizing k s with
  | zero =>
    rcases runFrom_cases s with ⟨e, h⟩ | ⟨-, u, -, h, -⟩ <;> simp [h, RunOutcome.addCycles]
  | succ n ih =>
    rcases runFrom_cases s with ⟨e, h⟩ | ⟨-, u, -, -, h⟩
    · simp [h, RunOutcome.addCycles]
    · rw [h, h, ih (k + 1), ih (0 + 1)]
      cases runFrom n 0 u <;> simp [RunOutcome.addCycles]; omega

/-- A run stops, after as many cycles again, in the same state however many more it is allowed. -/
theorem runFrom_mono {n k c : Nat} {s t : State} {e : EndStatus} (h : runFrom n k s = .stopped t e c) (d : Nat) :
    runFrom (n + d) k s = .stopped t e c := by
  induction n generalizing k s with
  | zero =>
    rcases runFrom_cases s with ⟨e', h'⟩ | ⟨-, u, -, h', -⟩
    · rw [h'] at h ⊢; exact h
    · rw [h'] at h; cases h
  | succ n ih =>
    rcases runFrom_cases s with ⟨e', h'⟩ | ⟨-, u, -, -, h'⟩
    · rw [h'] at h ⊢; exact h
    · rw [h'] at h
      rw [show n + 1 + d = n + d + 1 by omega, h']
      exact ih h

end Sys2Proof.Machine
end

