-- ==== Sys2Proof/Tests/Slice0.lean ====
section
/-! SUPPORT. Tests: the check on instructions, one decoded word per constructor written out bit by bit from the spec's
formats, one-cycle tests from spec/95_test_vectors.md, and a witness for the hypotheses of every obligation that has
some. -/

open Sys2Proof Sys2Proof.Machine Sys2Proof.Claims

namespace Sys2Proof.Tests

/-! ### Helpers -/

/-- A register file that is zero but for the given registers. -/
def regs (l : List (RegIdx × Word)) : RegFile := l.foldl (fun rf p => rf.write p.1 p.2) (Vector.replicate 32 0)

/-- A running machine with an idle pipeline at `pc = 0`. -/
def idleWith (l : List (RegIdx × Word)) : State := { State.reset with rf := regs l, status := .running }

/-- The state after a cycle, if it completes. -/
def next? (o : Host.Outcome State Fault Refusal) : Option State :=
  match o with
  | .next s => some s
  | .fault _ => none
  | .refused _ => none

/-- The fault of a cycle, if it faults. -/
def fault? (o : Host.Outcome State Fault Refusal) : Option Fault :=
  match o with
  | .next _ => none
  | .fault e => some e
  | .refused _ => none

/-- The refusal of a cycle, if it is refused. -/
def refusal? (o : Host.Outcome State Fault Refusal) : Option Refusal :=
  match o with
  | .next _ => none
  | .fault _ => none
  | .refused e => some e

/-- The latch an instruction leaves in ID/EX, decoded in an idle pipeline over the given registers. -/
def issued (i : Instr) (l : List (RegIdx × Word)) : Option IdEx := (next? (exec i (idleWith l))).map State.idex

/-- The EX/MEM latch one cycle later, for an instruction whose ID/EX latch is given. -/
def executed (mode : SltMode) (latch : Option IdEx) : Option ExMem :=
  latch.map fun l => execute mode l (aluInput1 l .zero .zero) (aluInput2 l .zero .zero)

/-- The result an instruction gives in EX, over the given registers. -/
def resultOf (mode : SltMode) (i : Instr) (l : List (RegIdx × Word)) : Option Word :=
  (executed mode (issued i l)).map ExMem.aluResult

/-- The latch of `LW $5, 0($0)`, of `ADDI $1, $0, 9` and of `LUI $1, 0x1234`. -/
def lw5 : IdEx := decodeLatch (fieldsI 35 0 5 0) (some rowLw) 0 0
def addi1 : IdEx := decodeLatch (fieldsI 8 0 1 9) (some rowAddi) 0 0
def lui1 : IdEx := decodeLatch (fieldsI 15 0 1 0x1234) (some rowLui) 0 0

/-- A register-writing EX/MEM latch, and a register-writing MEM/WB latch. -/
def exWrites (d : RegIdx) (v : Word) : ExMem := { ExMem.zero with regWrite := true, dest := d, aluResult := v }
def wbWrites (d : RegIdx) (v : Word) : MemWb := { MemWb.zero with regWrite := true, dest := d, aluResult := v }

/-- A load, and a store, in the MEM position at an address. -/
def loadAt (d : RegIdx) (a : Word) : ExMem :=
  { ExMem.zero with regWrite := true, memRead := true, memToReg := true, dest := d, aluResult := a }
def storeAt (d : RegIdx) (a v : Word) : ExMem :=
  { ExMem.zero with memWrite := true, dest := d, aluResult := a, storeVal := v }

/-! ### Well-formedness -/

/-- One word of every row of the opcode table but the catch-all's, with operand bits set: none is an unsupported
instruction. -/
theorem test_wellFormed_refuses_words_of_other_rows :
    ([0x00221820#32, 0x00221822#32, 0x00221824#32, 0x00221825#32, 0x00221826#32, 0x00221827#32, 0x0022182A#32,
        0x083FFFFF#32, 0x10220002#32, 0x1422FFFF#32, 0x2022FFFF#32, 0x28228000#32, 0x3022FFFF#32, 0x34228000#32,
        0x3822FFFF#32, 0x3C021234#32, 0x8C430000#32, 0xAC030004#32, 0x00221821#32, 0x00221823#32, 0x0022182B#32,
        0x24220005#32, 0x2C220005#32].all fun w => !(Instr.unsupported w).wellFormed) = true := by rfl

/-- Unsupported words of spec/95_test_vectors.md (V24, V29, V32, V184 to V188) are. -/
theorem test_wellFormed_accepts_unsupported_words :
    ([0xFFFFFFFF#32, 0x0000000C#32, 0x00221828#32, 0#32, 0x00A00008#32, 0x80A60000#32, 0x42000018#32].all
      fun w => (Instr.unsupported w).wellFormed) = true := by rfl

/-! ### Decoding: opcode, rs, rt, rd, shamt, funct (rule R161); opcode, rs, rt, imm16 (R162); opcode, address (R163) -/

theorem test_decode_add :
    decode (0b000000#6 ++ 0b00001#5 ++ 0b00010#5 ++ 0b00011#5 ++ 0b11111#5 ++ 0b100000#6) = .add 1 2 3 31 := by decide
theorem test_decode_sub :
    decode (0b000000#6 ++ 0b00001#5 ++ 0b00010#5 ++ 0b00011#5 ++ 0b00000#5 ++ 0b100010#6) = .sub 1 2 3 0 := by decide
theorem test_decode_and :
    decode (0b000000#6 ++ 0b00001#5 ++ 0b00010#5 ++ 0b00011#5 ++ 0b00000#5 ++ 0b100100#6) = .and 1 2 3 0 := by decide
theorem test_decode_or :
    decode (0b000000#6 ++ 0b00001#5 ++ 0b00010#5 ++ 0b00011#5 ++ 0b00000#5 ++ 0b100101#6) = .or 1 2 3 0 := by decide
theorem test_decode_xor :
    decode (0b000000#6 ++ 0b00001#5 ++ 0b00010#5 ++ 0b00011#5 ++ 0b00000#5 ++ 0b100110#6) = .xor 1 2 3 0 := by decide
theorem test_decode_nor :
    decode (0b000000#6 ++ 0b00001#5 ++ 0b00010#5 ++ 0b00011#5 ++ 0b00000#5 ++ 0b100111#6) = .nor 1 2 3 0 := by decide
theorem test_decode_slt :
    decode (0b000000#6 ++ 0b00001#5 ++ 0b00010#5 ++ 0b00011#5 ++ 0b00000#5 ++ 0b101010#6) = .slt 1 2 3 0 := by decide
theorem test_decode_addu :
    decode (0b000000#6 ++ 0b00001#5 ++ 0b00010#5 ++ 0b00011#5 ++ 0b00000#5 ++ 0b100001#6) = .addu 1 2 3 0 := by decide
theorem test_decode_subu :
    decode (0b000000#6 ++ 0b00001#5 ++ 0b00010#5 ++ 0b00011#5 ++ 0b00000#5 ++ 0b100011#6) = .subu 1 2 3 0 := by decide
theorem test_decode_sltu :
    decode (0b000000#6 ++ 0b00001#5 ++ 0b00010#5 ++ 0b00011#5 ++ 0b00000#5 ++ 0b101011#6) = .sltu 1 2 3 0 := by decide
theorem test_decode_j : decode (0b000010#6 ++ 0b00001111111111111111111111#26) = .j 0x03FFFFF := by decide
theorem test_decode_beq :
    decode (0b000100#6 ++ 0b00001#5 ++ 0b00010#5 ++ 0b0000000000000010#16) = .beq 1 2 2 := by decide
theorem test_decode_bne :
    decode (0b000101#6 ++ 0b00001#5 ++ 0b00010#5 ++ 0b1111111111111111#16) = .bne 1 2 0xFFFF := by decide
theorem test_decode_addi :
    decode (0b001000#6 ++ 0b00001#5 ++ 0b00010#5 ++ 0b1111111111111111#16) = .addi 1 2 0xFFFF := by decide
theorem test_decode_addiu :
    decode (0b001001#6 ++ 0b00001#5 ++ 0b00010#5 ++ 0b0000000000000101#16) = .addiu 1 2 5 := by decide
theorem test_decode_slti :
    decode (0b001010#6 ++ 0b00001#5 ++ 0b00010#5 ++ 0b1000000000000000#16) = .slti 1 2 0x8000 := by decide
theorem test_decode_sltiu :
    decode (0b001011#6 ++ 0b00001#5 ++ 0b00010#5 ++ 0b0000000000000101#16) = .sltiu 1 2 5 := by decide
theorem test_decode_andi :
    decode (0b001100#6 ++ 0b00001#5 ++ 0b00010#5 ++ 0b1111111111111111#16) = .andi 1 2 0xFFFF := by decide
theorem test_decode_ori :
    decode (0b001101#6 ++ 0b00001#5 ++ 0b00010#5 ++ 0b1000000000000000#16) = .ori 1 2 0x8000 := by decide
theorem test_decode_xori :
    decode (0b001110#6 ++ 0b00001#5 ++ 0b00010#5 ++ 0b1111111111111111#16) = .xori 1 2 0xFFFF := by decide
theorem test_decode_lui :
    decode (0b001111#6 ++ 0b00000#5 ++ 0b00010#5 ++ 0b0001001000110100#16) = .lui 0 2 0x1234 := by decide
theorem test_decode_lw :
    decode (0b100011#6 ++ 0b00010#5 ++ 0b00011#5 ++ 0b0000000000000000#16) = .lw 2 3 0 := by decide
theorem test_decode_sw :
    decode (0b101011#6 ++ 0b00000#5 ++ 0b00011#5 ++ 0b0000000000000100#16) = .sw 0 3 4 := by decide
/-- Opcode 0 with funct 0x28, and opcode 3 (V32, rule R168). -/
theorem test_decode_unsupported :
    decode (0b000000#6 ++ 0b00001#5 ++ 0b00010#5 ++ 0b00011#5 ++ 0b00000#5 ++ 0b101000#6) = .unsupported 0x00221828 ∧
    decode (0b000011#6 ++ 0b00000000000000000000000000#26) = .unsupported 0x0C000000 := by decide

/-- The fields of V22 and V23, sign extension included. -/
theorem test_fields :
    (sliceWord 0x2022FFFF).rd = 31 ∧ (sliceWord 0x2022FFFF).imm32 = 0xFFFFFFFF ∧
    (sliceWord 0x083FFFFF).address = 0x03FFFFF ∧ (sliceWord 0x083FFFFF).rt = 31 ∧
    (sliceWord 0x28228000).imm32 = 0xFFFF8000 := by decide

/-- The example words of the instruction rules, encoded. -/
theorem test_encode :
    encode (.add 1 2 3 0) = 0x00221820 ∧ encode (.slt 1 2 3 0) = 0x0022182A ∧ encode (.addi 1 2 0xFFFF) = 0x2022FFFF ∧
    encode (.lw 1 2 0xFFFC) = 0x8C22FFFC ∧ encode (.sw 0 3 4) = 0xAC030004 ∧ encode (.beq 0 0 0xFFFF) = 0x1000FFFF ∧
    encode (.j 3) = 0x08000003 ∧ encode (.subu 1 2 3 0) = 0x00221823 := by decide

/-- The table's numbering: bits above `nbits` are zero, and more than a word is none. -/
theorem test_decodeTableWord :
    decodeTableWord 32 0x00221820 = some (.add 1 2 3 0) ∧ decodeTableWord 8 0xFF = some (.unsupported 0xFF) ∧
    decodeTableWord 40 0 = none := by decide

/-! ### Results in EX (V40 to V69, V111 to V162) -/

theorem test_add_wraps : resultOf .wrappedSign (.add 1 2 3 0) [(1, 0x7FFFFFFF), (2, 1)] = some 0x80000000 := by decide
theorem test_sub_of_min : resultOf .wrappedSign (.sub 1 2 3 0) [(1, 5), (2, 0x80000000)] = some 0x80000005 := by decide
theorem test_and :
    resultOf .wrappedSign (.and 1 2 3 0) [(1, 0xF0F0F0F0), (2, 0xFF00FF00)] = some 0xF000F000 := by decide
theorem test_or : resultOf .wrappedSign (.or 1 2 3 0) [(1, 0xF0F0F0F0), (2, 0x0F000000)] = some 0xFFF0F0F0 := by decide
theorem test_xor :
    resultOf .wrappedSign (.xor 1 2 3 0) [(1, 0xFFFF0000), (2, 0x0F0F0F0F)] = some 0xF0F00F0F := by decide
theorem test_nor :
    resultOf .wrappedSign (.nor 1 2 3 0) [(1, 0xF0F0F0F0), (2, 0x0000FFFF)] = some 0x0F0F0000 := by decide
theorem test_slt_wrapped : resultOf .wrappedSign (.slt 1 2 3 0) [(1, 0x80000000), (2, 1)] = some 0 := by decide
theorem test_slt_exact : resultOf .exactSign (.slt 1 2 3 0) [(1, 0x80000000), (2, 1)] = some 1 := by decide
theorem test_addi_sign_extends : resultOf .wrappedSign (.addi 1 2 0xFFFF) [(1, 7)] = some 6 := by decide
theorem test_slti_of_min : resultOf .wrappedSign (.slti 1 2 0x8000) [(1, 0x80000000)] = some 1 := by decide
theorem test_andi_zero_extends : resultOf .wrappedSign (.andi 1 2 0x8000) [(1, 0xFFFFFFFF)] = some 0x00008000 := by decide
theorem test_ori : resultOf .wrappedSign (.ori 1 2 0x8000) [(1, 0x00010000)] = some 0x00018000 := by decide
theorem test_xori : resultOf .wrappedSign (.xori 1 2 0xFFFF) [(1, 0xFFFFFFFF)] = some 0xFFFF0000 := by decide

/-- V69: LUI leaves the raw immediate for its write-back, to `rt`. -/
theorem test_lui_in_ex :
    (executed .wrappedSign (issued (.lui 0 2 0x1234) [])).map (fun l => (l.dest, l.imm16, l.regWrite)) =
      some (2, 0x1234, true) := by decide

/-- V144: LUI writes back the immediate shifted left by 16. -/
theorem test_lui_writes_back :
    (writeBack { MemWb.zero with regWrite := true, dest := 2, extra1 := .lui, imm16 := 0x1234 } (regs [])).read 2 =
      0x12340000 := by decide

/-- V66: SW computes its address and keeps the value read at decode. -/
theorem test_sw_in_ex :
    (executed .wrappedSign (issued (.sw 1 2 0xFFFC) [(1, 12), (2, 7)])).map
      (fun l => (l.aluResult, l.storeVal, l.memWrite, l.regWrite)) = some (8, 7, true, false) := by decide

/-- V133: a store takes the loaded value of its register from MEM/WB. -/
theorem test_sw_takes_the_loaded_value :
    (next? (exec noOp { idleWith [] with
        exmem := storeAt 2 8 5
        memwb := { wbWrites 2 0x99 with memToReg := true, memResult := 0x37 } })).map (fun s => s.dmem.readWord 8) =
      some 0x37 := by decide

/-- V166: a load's address; V140: the last word of the data memory. -/
theorem test_lw_address : resultOf .wrappedSign (.lw 1 2 0xFFFC) [(1, 8)] = some 4 := by decide
theorem test_lw_last_word :
    (next? (exec noOp { idleWith [] with exmem := loadAt 3 0xFC, dmem := [(252, 0xCD), (253, 0xAB)] })).map
      (fun s => s.memwb.memResult) = some 0x0000ABCD := by decide

/-! ### The next PC (V150, V178 to V181) -/

theorem test_beq_taken : (next? (exec (.beq 1 2 2) (idleWith [(1, 3), (2, 3)]))).map State.pc = some 0x0C := by decide
theorem test_beq_not_taken : (next? (exec (.beq 1 2 2) (idleWith [(1, 3), (2, 4)]))).map State.pc = some 4 := by decide
theorem test_bne_taken : (next? (exec (.bne 1 2 2) (idleWith [(1, 3), (2, 4)]))).map State.pc = some 0x0C := by decide
theorem test_bne_not_taken : (next? (exec (.bne 1 1 5) (idleWith [(1, 9)]))).map State.pc = some 4 := by decide
theorem test_j : (next? (exec (.j 0x3FFFFF) (idleWith []))).map State.pc = some 0x00FFFFFC := by decide
/-- `J 3` at the last word: `pcPlus4` wraps to region 0 (rule R152). -/
theorem test_j_wraps :
    (next? (exec (.j 3) { idleWith [] with pc := 0xFFFFFFFC })).map State.pc = some 0x0000000C := by decide

/-! ### The uncertain encodings (V189 to V193) and the no-op (V184) -/

/-- An idle machine with a setting of `UNCERTAIN_OPS`. -/
def uncertainWith (u : UncertainOps) : State :=
  { idleWith [(1, 0xFFFFFFFF), (2, 1)] with cfg := { Config.standard with uncertainOps := u } }

theorem test_addu_refused :
    refusal? (exec (.addu 1 2 3 0) (uncertainWith .refuse)) = some (.uncertainEncoding 0 0x00221821) := by decide
theorem test_addu_no_op :
    (next? (exec (.addu 1 2 3 0) (uncertainWith .noOp))).map (fun s => (s.idex, s.pc)) = some (.zero, 4) := by decide
theorem test_subu_twin :
    (executed .wrappedSign ((next? (exec (.subu 1 2 3 0) (uncertainWith .twin))).map State.idex)).map
      (fun l => (l.aluResult, l.dest)) = some (0xFFFFFFFE, 3) := by decide
theorem test_sltu_twin_is_signed :
    (executed .wrappedSign ((next? (exec (.sltu 1 2 3 0) (uncertainWith .twin))).map State.idex)).map
      ExMem.aluResult = some 1 := by decide
theorem test_addiu_twin :
    (executed .wrappedSign ((next? (exec (.addiu 1 2 5) (uncertainWith .twin))).map State.idex)).map
      (fun l => (l.aluResult, l.dest)) = some (4, 2) := by decide
theorem test_sltiu_twin_is_signed :
    (executed .wrappedSign ((next? (exec (.sltiu 1 2 5) (uncertainWith .twin))).map State.idex)).map
      ExMem.aluResult = some 1 := by decide
theorem test_unsupported_is_a_no_op :
    (next? (exec (.unsupported 0x0000000C) (idleWith []))).map (fun s => (s.idex, s.pc)) = some (.zero, 4) := by decide

/-! ### Hazards and forwarding (H1 to H26, V126) -/

/-- With `LW $5` in EX: H1, H2, H4, H6, H7, H10, H22 and H24 stall. -/
theorem test_load_use_stalls :
    ∀ i ∈ [Instr.add 5 1 6 0, .add 1 5 6 0, .addi 5 6 1, .lw 5 6 0, .sw 5 6 0, .beq 1 5 1, .unsupported 0x00A00008,
        .unsupported 0x80A60000],
      stalls i { idleWith [] with idex := lw5 } = true := by decide

/-- With `LW $5` in EX: H3, H5, H8, H9, H11, H12, H23, H25 and H26 do not. -/
theorem test_load_use_does_not_stall :
    ∀ i ∈ [Instr.add 7 8 6 0, .addi 6 5 1, .sw 6 5 0, .beq 5 1 1, .lui 5 6 1, .j 0x0A00000, .unsupported 0x04A10000,
        .unsupported 0x18A00000, .unsupported 0x40A00000],
      stalls i { idleWith [] with idex := lw5 } = false := by decide

/-- The store hazard: H14, H15 and H19. -/
theorem test_store_hazard :
    stalls (.sw 0 1 0) { idleWith [] with exmem := exWrites 1 9 } = true ∧
    stalls (.sw 0 1 0) { idleWith [] with idex := addi1, exmem := exWrites 1 9 } = false ∧
    stalls (.sw 1 2 0) { idleWith [] with exmem := exWrites 1 9 } = false := by decide

/-- V126, V123 and V127: the nearer writer, a latch that does not write, and register 0. -/
theorem test_forward :
    forward (exWrites 5 0x11111111) (wbWrites 5 0x22222222) 5 0xAAAA = 0x11111111 ∧
    forward (storeAt 5 0x11 0) (wbWrites 5 0x22) 5 0xAAAA = 0x22 ∧
    forward (exWrites 0 9) .zero 0 0 = 9 := by decide

/-! ### Faults (V138, V139, V141), and a fault over a refusal (P11) -/

theorem test_faults :
    fault? (exec noOp { idleWith [] with exmem := loadAt 2 2 }) = some (.memFault .load 2) ∧
    fault? (exec noOp { idleWith [] with exmem := storeAt 2 0x100 5 }) = some (.memFault .store 0x100) ∧
    fault? (exec noOp { idleWith [] with exmem := loadAt 2 0xFFFFFFFC }) = some (.memFault .load 0xFFFFFFFC) ∧
    fault? (exec (.addu 1 1 3 0) { idleWith [] with exmem := loadAt 2 2 }) = some (.memFault .load 2) := by decide

/-! ### The step -/

/-- Each of the table's rows asked for runs as the first instruction after reset. -/
theorem test_withFetchWord :
    (next? (step (State.reset.withFetchWord 32 0x2022FFFF))).map (fun s => (s.pc, s.idex.rt, s.idex.imm32)) =
      some (4, 2, 0xFFFFFFFF) := by decide

/-- F12: the empty image ends at once, in the reset state. -/
theorem test_empty_image : (next? (step State.reset)).map State.pc = some 0 ∧ State.reset.status = .ended := by decide

/-! ### The Control/Decode Stage's own interface (V75, V83, V85, V86; SLTIU under R83), and the host's run (F12, V182, V189) -/

theorem test_decodeStage :
    let stage (u : UncertainOps) (stall : Bool) (w : Word) :=
      decodeStage { Config.standard with uncertainOps := u } stall (sliceWord w) 4 7 8
    ((stage .refuse false 0x00221820).idex.regWrite = true ∧ (stage .refuse false 0x00221820).idex.rtVal = 8) ∧
    stage .refuse true 0x00221820 = ⟨.zero, false, false⟩ ∧ stage .refuse false 0x10220002 = ⟨.zero, true, false⟩ ∧
    (stage .refuse true 0x00221821).refuse = true ∧ stage .noOp false 0x00221821 = ⟨.zero, true, false⟩ ∧
    (stage .twin false 0x2C220005).idex.aluOp.code = 4 := by decide

/-- The status and the number of cycles of a run that stopped. -/
def stopped? (o : RunOutcome) : Option (EndStatus × Nat) :=
  match o with
  | .stopped _ status cycles => some (status, cycles)
  | .outOfCycles _ => none

theorem test_hostRun :
    let run (image : List Word) (u : UncertainOps) :=
      stopped? (hostRun 1 image (regs []) [] { Config.standard with uncertainOps := u })
    run [] .refuse = some (.ended, 0) ∧
    run [0x00221821] .refuse = some (.refused (.uncertainEncoding 0 0x00221821), 0) ∧
    run [0x00221821] .noOp = some (.ended, 1) ∧ run [0x1000FFFF] .refuse = none := by decide

/-! ### Witnesses: states and operands that meet the hypotheses of each obligation -/

/-- A running machine with `ADD $2, $1, $1` in FD, `SW $5, 0($0)` in EX and a writer of `$1` in MEM. -/
def busy : State :=
  { idleWith [(1, 7), (5, 9)] with
    idex := decodeLatch (fieldsI 43 0 5 0) (some rowSw) 0 9
    exmem := exWrites 1 3
    imem := Memory.ofWords 0 [0x00211020]
    imageWords := 1 }

theorem witness_DecodeOfEncode : (Instr.lw 2 3 0).wellFormed = true ∧ (Instr.unsupported 0).wellFormed = true := by
  decide

theorem witness_AnInstructionIsFourBytes : ([1, 2, 3] : List Byte).length < 4 := by decide

theorem witness_LaunchMeetsTheInvariants :
    Memory.wf [(0, 21), (255, 1)] ∧ ∀ c ∈ ([(0, 21), (255, 1)] : Memory), c.1 < 4 * Config.standard.dmemWords := by
  decide

theorem witness_StepRunsTheFetchedInstruction :
    (busy.status = .running ∧ (Instr.add 1 1 2 0).wellFormed = true ∧ busy.fetchWord = encode (.add 1 1 2 0)) ∧
    State.reset.status = .ended := by decide

theorem witness_PlacedInstructionRunsNext : busy.imem.wf := by decide

theorem witness_Inv : busy.Inv := by
  refine ⟨by decide, by decide, by decide, by decide, by decide, by decide, by decide, by decide, by decide⟩

theorem witness_HazardInv : busy.HazardInv := by
  refine ⟨by decide, by decide, by decide, by decide, by decide⟩

theorem witness_StepKeepsTheInvariant : busy.Inv ∧ ∃ t, step busy = .next t :=
  ⟨witness_Inv, _, rfl⟩

theorem witness_StepKeepsTheHazardInvariant :
    busy.cfg.rfWriteBeforeRead = true ∧ busy.cfg.storeShadowMatch = .writeGated ∧ busy.HazardInv ∧
      ∃ t, step busy = .next t :=
  ⟨rfl, rfl, witness_HazardInv, _, rfl⟩

theorem witness_LaunchInputsAreFixedForTheRun : ∃ t, step busy = .next t := ⟨_, rfl⟩

/-- Both edges of the first clause (the first misaligned address, the first address out of range), the last good
address, and both clauses on an uncertain word. -/
theorem witness_OutcomeOfEveryCycle :
    badAccess { idleWith [] with exmem := loadAt 2 1 } ∧ badAccess { idleWith [] with exmem := storeAt 2 0x100 5 } ∧
    ¬badAccess { idleWith [] with exmem := loadAt 2 0xFC } ∧
    (¬badAccess (uncertainWith .refuse) ∧ uncertain (.addu 1 2 3 0) = true ∧
      (uncertainWith .refuse).cfg.uncertainOps = .refuse) ∧
    (¬badAccess (uncertainWith .noOp) ∧ (uncertainWith .noOp).cfg.uncertainOps ≠ .refuse) := by
  unfold badAccess
  decide

/-- A write-back of an ALU result, of a loaded value and of LUI's immediate. -/
theorem witness_WriteBackIsTheOnlyRegisterWrite :
    (∃ t, exec noOp { idleWith [] with memwb := wbWrites 0 9 } = .next t) ∧
    (∃ t, exec noOp { idleWith [] with memwb := { wbWrites 2 9 with memToReg := true, memResult := 5 } } = .next t) ∧
    ∃ t, exec noOp { idleWith [] with memwb := { wbWrites 31 9 with extra1 := .lui, imm16 := 0xFFFF } } = .next t :=
  ⟨⟨_, rfl⟩, ⟨_, rfl⟩, ⟨_, rfl⟩⟩

/-- A store to the last word, resolved from MEM/WB, and a cycle without one. -/
theorem witness_DataMemoryChangesOnlyByTheStoreInMem :
    (Memory.wf [(248, 7)] ∧ (storeAt 2 0xFC 5).memWrite = true ∧
      ∃ t, exec noOp { idleWith [] with dmem := [(248, 7)], exmem := storeAt 2 0xFC 5, memwb := wbWrites 2 6 } =
        .next t) ∧
    (ExMem.zero.memWrite = false ∧ ∃ t, exec noOp (idleWith []) = .next t) :=
  ⟨⟨by decide, rfl, _, rfl⟩, rfl, _, rfl⟩

theorem witness_ExecuteStageOfEveryCycle :
    (∃ t, exec noOp busy = .next t) ∧ ∃ t, exec noOp { busy with idex := lui1 } = .next t := ⟨⟨_, rfl⟩, ⟨_, rfl⟩⟩

/-- A load from the last word of the data memory, and a store. -/
theorem witness_MemoryStageFillsMemWb :
    (∃ t, exec noOp { idleWith [] with exmem := loadAt 2 0xFC } = .next t) ∧
    ∃ t, exec noOp { idleWith [] with exmem := storeAt 2 0 5 } = .next t := ⟨⟨_, rfl⟩, ⟨_, rfl⟩⟩

/-- A stall on the store hazard, and one on the load-use hazard. -/
theorem witness_StallHoldsThePc :
    (storeRuleStalls (Instr.sw 0 1 0).fields { idleWith [] with exmem := exWrites 1 9 } ∧
      ∃ t, exec (.sw 0 1 0) { idleWith [] with exmem := exWrites 1 9 } = .next t) ∧
    (loadRuleStalls (Instr.add 1 5 6 0).fields { idleWith [] with idex := lw5 } ∧
      ∃ t, exec (.add 1 5 6 0) { idleWith [] with idex := lw5 } = .next t) := by
  unfold storeRuleStalls loadRuleStalls
  exact ⟨⟨by decide, _, rfl⟩, by decide, _, rfl⟩

/-- A jump, a taken branch of each kind, and a word that is none, in an idle pipeline. -/
theorem witness_IssuedWordsResolveTheirNextPc :
    ∀ i ∈ [Instr.j 3, .beq 1 1 2, .bne 1 2 2, .add 1 1 2 0],
      ¬(storeRuleStalls i.fields (idleWith [(1, 7)]) ∨ loadRuleStalls i.fields (idleWith [(1, 7)])) ∧
      (next? (exec i (idleWith [(1, 7)]))).isSome = true := by
  unfold storeRuleStalls loadRuleStalls
  decide

theorem witness_BubblesStayBubbles : (idleWith []).idex = IdEx.zero ∧ (idleWith []).exmem = ExMem.zero ∧
    (exWrites 1 9).memRead = false ∧ (exWrites 1 9).memWrite = false ∧
    (∃ t, exec noOp (idleWith []) = .next t) ∧ ∃ t, exec noOp { idleWith [] with exmem := exWrites 1 9 } = .next t :=
  ⟨rfl, rfl, rfl, rfl, ⟨_, rfl⟩, ⟨_, rfl⟩⟩

theorem witness_FetchedWordTouchesOnlyPcAndIdEx :
    (∃ t, exec (.j 3) busy = .next t) ∧ ∃ u, exec (.lw 1 2 0) busy = .next u := ⟨⟨_, rfl⟩, ⟨_, rfl⟩⟩

/-- The empty image, and a one-word image at its very end. -/
theorem witness_EndOfRunIsDrained :
    (State.reset.imageWords ≤ State.reset.pc.toNat / 4 ∧ State.reset.idle = true) ∧
    ({ idleWith [] with imageWords := 1, pc := 4 } : State).imageWords ≤
      ({ idleWith [] with imageWords := 1, pc := 4 } : State).pc.toNat / 4 ∧
    ({ idleWith [] with imageWords := 1, pc := 4 } : State).idle = true := by decide

/-- `SW $5, 0($5)` behind `LW $5` stalls twice (P8). -/
theorem witness_NoInstructionStallsMoreThanTwice :
    ∃ t u, stalls (.sw 5 5 0) { idleWith [] with idex := lw5 } = true ∧
      exec (.sw 5 5 0) { idleWith [] with idex := lw5 } = .next t ∧ stalls (.sw 5 5 0) t = true ∧
      exec (.sw 5 5 0) t = .next u :=
  ⟨_, _, by decide, rfl, by decide, rfl⟩

/-- `BEQ $1, $2` with different instructions in EX and MEM. -/
theorem witness_BranchesSeeOnlyTheRegisterFile :
    let s := idleWith [(1, 7)]
    let s' := { s with idex := lui1, exmem := exWrites 2 7 }
    s.pc = s'.pc ∧ s.rf = s'.rf ∧ s.memwb = s'.memwb ∧ s.cfg = s'.cfg ∧ stalls (.beq 1 2 2) s = false ∧
      stalls (.beq 1 2 2) s' = false ∧ (∃ t, exec (.beq 1 2 2) s = .next t) ∧ ∃ t', exec (.beq 1 2 2) s' = .next t' :=
  ⟨rfl, rfl, rfl, rfl, by decide, by decide, ⟨_, rfl⟩, ⟨_, rfl⟩⟩

theorem witness_ForwardedInputsAreTheLatestValues :
    busy.Inv ∧ busy.HazardInv ∧ busy.idex.memWrite = true ∧ busy.idex.extra1 ≠ .lui ∧ busy.exmem.extra1 ≠ .lui ∧
      busy.memwb.extra1 ≠ .lui ∧ ∃ t u, exec noOp busy = .next t ∧ exec noOp t = .next u :=
  ⟨witness_Inv, witness_HazardInv, by decide, by decide, by decide, by decide, _, _, rfl, rfl⟩

/-- A machine with a store of `$5` in MEM and nothing older. -/
def storing : State := { idleWith [(5, 9)] with exmem := storeAt 5 8 9 }

theorem witness_StoredWordIsTheLatestValue :
    storing.HazardInv ∧ storing.dmem.wf ∧ storing.exmem.memWrite = true ∧ storing.memwb.extra1 ≠ .lui ∧
      ∃ t, exec noOp storing = .next t :=
  ⟨⟨by decide, by decide, by decide, by decide, by decide⟩, by decide, rfl, by decide, _, rfl⟩

/-- LUI in EX, followed by three no-ops; the second clause's condition holds of them. -/
theorem witness_LuiForwardsItsOpaqueResult :
    ∃ t u v, lui1.extra1 = .lui ∧ lui1.regWrite = true ∧ lui1.memToReg = false ∧
      exec noOp { idleWith [] with idex := lui1 } = .next t ∧ exec noOp t = .next u ∧ exec noOp u = .next v ∧
      u.exmem.regWrite = false :=
  ⟨_, _, _, rfl, rfl, rfl, rfl, rfl, rfl, rfl⟩

/-- H16: the settings, and the one configuration they differ in. -/
theorem witness_StoreShadowSettingsDiffer :
    ({ Config.standard with storeShadowMatch := .writeGated } : Config).storeShadowMatch = .writeGated ∧
    ({ Config.standard with storeShadowMatch := .destOnly } : Config).storeShadowMatch = .destOnly ∧
    let s := { idleWith [] with idex := decodeLatch (fieldsI 43 0 1 4) (some rowSw) 0 0, exmem := exWrites 1 9 }
    stalls (.sw 0 1 0) s = true ∧
    stalls (.sw 0 1 0) { s with cfg := { Config.standard with storeShadowMatch := .destOnly } } = false := by decide

/-- A store to word 2 with a load of the given offset behind it. -/
def storeThenLoad (offset : Imm16) : State :=
  { storing with idex := decodeLatch (fieldsI 35 0 6 offset) (some rowLw) 0 0 }

/-- The load is from the same word, and from the last word. -/
theorem witness_LoadSeesTheStoreBefore :
    (∃ t u, exec noOp (storeThenLoad 8) = .next t ∧ exec noOp t = .next u ∧ t.exmem.memRead = true ∧
      t.exmem.memWrite = false ∧ t.exmem.aluResult = 8) ∧
    ∃ t u, exec noOp (storeThenLoad 252) = .next t ∧ exec noOp t = .next u ∧ t.exmem.memRead = true ∧
      t.exmem.memWrite = false ∧ t.exmem.aluResult = 252 :=
  ⟨⟨_, _, rfl, rfl, rfl, rfl, by decide⟩, _, _, rfl, rfl, rfl, rfl, by decide⟩

/-- The last word, the first address out of range, and a misaligned address. -/
theorem witness_AccessPrimitives :
    Memory.wf [] ∧ ((252#32).toNat % 4 = 0 ∧ (252#32).toNat / 4 < Config.standard.dmemWords) ∧
    Config.standard.dmemWords ≤ (256#32).toNat / 4 ∧ (253#32).toNat % 4 ≠ 0 := by decide

/-- No bad access and no stall: an idle pipeline, for every instruction of the issue statements. -/
theorem witness_Issues :
    ¬badAccess (idleWith []) ∧
    ∀ i ∈ [Instr.add 1 2 3 0, .sub 1 2 3 0, .and 1 2 3 0, .or 1 2 3 0, .xor 1 2 3 0, .nor 1 2 3 0, .slt 1 2 3 0,
        .addi 1 2 5, .slti 1 2 5, .andi 1 2 5, .ori 1 2 5, .xori 1 2 5, .lw 1 2 4, .sw 1 2 4, .beq 1 2 2, .bne 1 2 2,
        .unsupported 0], stalls i (idleWith []) = false := by
  unfold badAccess
  decide

theorem witness_UnsupportedWordsAreNoOps :
    (Instr.unsupported 0x0000000C).wellFormed = true ∧ stalls (.unsupported 0x0000000C) (idleWith []) = false := by
  decide

theorem witness_UncertainEncodingsFollowTheParameter :
    ∀ u ∈ [UncertainOps.noOp, .twin],
      (uncertainWith u).cfg.uncertainOps = u ∧ ¬badAccess (uncertainWith u) ∧
      ∀ i ∈ [Instr.addu 1 2 3 0, .subu 1 2 3 0, .sltu 1 2 3 0, .addiu 1 2 5, .sltiu 1 2 5],
        stalls i (uncertainWith u) = false := by
  unfold badAccess
  decide

/-- An idle pipeline, for the statements on the whole passage. -/
theorem witness_IsolatedEffects :
    (idleWith [(1, 7)]).idle = true ∧ (uncertainWith .noOp).idle = true ∧ (uncertainWith .twin).idle = true := by
  decide

/-- The last word for a load and a store; the first address out of range and a misaligned one for the faults. -/
theorem witness_LoadAndStoreAddresses :
    let s := idleWith [(1, 256)]
    s.idle = true ∧ s.dmem.wf ∧ (effectiveAddress s 1 0xFFFC).toNat = 252 ∧ s.cfg.dmemWords = 64 ∧
    (effectiveAddress s 1 0).toNat = 256 ∧ (effectiveAddress s 1 0xFFFD).toNat % 4 = 1 := by decide

/-- Well-formed, no bad access: a word that is refused, one that issues, and one that stalls. -/
theorem witness_ControlStageDecidesTheCycle :
    (Instr.addu 1 2 3 0).wellFormed = true ∧ ¬badAccess (uncertainWith .refuse) ∧
    (decodeStage (uncertainWith .refuse).cfg false (Instr.addu 1 2 3 0).fields 4 0 0).refuse = true ∧
    (decodeStage (uncertainWith .noOp).cfg false (Instr.addu 1 2 3 0).fields 4 0 0).refuse = false ∧
    ¬badAccess { idleWith [] with idex := lw5 } ∧ stalls (.add 1 5 6 0) { idleWith [] with idex := lw5 } = true := by
  unfold badAccess
  decide

/-- A run that ends at once, one that is refused at once, one that completes a cycle, and one that goes on. -/
theorem witness_HostStopsAtTheFirstEndStatus :
    EndsWith State.reset .ended ∧
    EndsWith (State.reset.withFetchWord 32 0x00221821) (.refused (.uncertainEncoding 0 0x00221821)) ∧
    (∃ t, Cycles 1 busy t) ∧ busy.status = .running ∧ ∃ t, step busy = .next t :=
  ⟨rfl, ⟨rfl, rfl⟩, ⟨_, rfl, _, rfl, rfl⟩, rfl, _, rfl⟩

end Sys2Proof.Tests
end

/-! The obligations of the state family (10_state.md): launch, the placed instruction, the inputs fixed for a run, and
the invariant of every step. Lemmas first, one section per part of the machine they speak of. -/

namespace Sys2Proof.Machine

/-! ### The program counter: every next PC is aligned (rule R33) -/

theorem aligned_add {a b : Word} (ha : aligned a = true) (hb : aligned b = true) : aligned (a + b) = true := by
  rw [aligned_iff] at *
  rw [BitVec.toNat_add]
  omega

theorem aligned_shiftLeft_two (a : Word) : aligned (a <<< 2) = true := by
  rw [aligned_iff, BitVec.toNat_shiftLeft, Nat.shiftLeft_eq]
  omega

theorem branchTarget_aligned {pcPlus4 : Word} (h : aligned pcPlus4 = true) (imm32 : Word) :
    aligned (branchTarget pcPlus4 imm32) = true :=
  aligned_add h (aligned_shiftLeft_two imm32)

theorem jumpTarget_aligned (pcPlus4 : Word) (address : BitVec 26) :
    aligned (jumpTarget pcPlus4 address) = true := by
  rw [aligned_iff, jumpTarget_eq, BitVec.toNat_ofNat]
  omega

/-- Held, sequential, branch or jump: the next PC of an aligned PC is aligned (rules R69, R75). -/
theorem nextPc_aligned {pc : Word} (h : aligned pc = true) (issued : Bool) (f : Fields) (rsVal rtVal : Word) :
    aligned (nextPc issued f pc rsVal rtVal) = true := by
  have h4 : aligned (pc + 4) = true := aligned_add h rfl
  unfold nextPc
  split
  · split
    · exact jumpTarget_aligned _ _
    · exact branchTarget_aligned h4 _
    · exact h4
  · exact h

/-- Clearing the two low bits gives the address of the word. -/
theorem clearLowBits_toNat (pc : Word) : (pc &&& 0xFFFFFFFC#32).toNat = 4 * (pc.toNat / 4) := by
  have mask_bit : ∀ i < 32, (0xFFFFFFFC#32).getLsbD i = !decide (i < 2) := by decide
  have h : pc &&& 0xFFFFFFFC#32 = (pc >>> 2) <<< 2 := by
    apply BitVec.eq_of_getLsbD_eq
    intro i hi
    simp only [BitVec.getLsbD_and, BitVec.getLsbD_shiftLeft, BitVec.getLsbD_ushiftRight, mask_bit i hi]
    by_cases h2 : i < 2
    · simp [h2]
    · simp [h2, hi, show 2 + (i - 2) = i by omega]
  have := pc.isLt
  rw [h, BitVec.toNat_shiftLeft, BitVec.toNat_ushiftRight, Nat.shiftLeft_eq, Nat.shiftRight_eq_div_pow]
  omega

theorem clearLowBits_aligned (pc : Word) : aligned (pc &&& 0xFFFFFFFC#32) = true := by
  rw [aligned_iff, clearLowBits_toNat]
  omega

theorem wordIndex_clearLowBits (pc : Word) : wordIndex (pc &&& 0xFFFFFFFC#32) = wordIndex pc := by
  rw [wordIndex_eq, wordIndex_eq, clearLowBits_toNat]
  omega

/-! ### Instruction memory: what `Fetch` finds (rules R30, R65) -/

theorem fetch_inside {imem : Memory} {n : Nat} {pc : Word} (ha : aligned pc = true) (hn : wordIndex pc < n) :
    fetch imem n pc = imem.readWord (4 * wordIndex pc) := by
  simp [fetch, ha, hn]

theorem Memory.readWord_nil (a : Nat) : Memory.readWord [] a = 0 :=
  show wordOfBytes 0 0 0 0 = 0 by decide

/-- Word `j` of an image laid out from word index `k` on stands at word index `k + j`. -/
theorem Memory.readWord_ofWords (ws : List Word) (k j : Nat) :
    (Memory.ofWords k ws).readWord (4 * (k + j)) = ws.getD j 0 := by
  induction ws generalizing k j with
  | nil => exact Memory.readWord_nil _
  | cons w ws ih =>
    have hwf := Memory.ofWords_wf (k + 1) ws
    cases j with
    | zero => exact Memory.readWord_writeWord hwf _ _
    | succ j =>
      rw [Memory.ofWords, Memory.readWord_writeWord_other hwf w (by omega), List.getD_cons_succ, ← ih (k + 1) j,
        show k + (j + 1) = k + 1 + j by omega]

/-- `Fetch` in an image laid out from address 0 on (rule R30). -/
theorem fetch_ofWords (image : List Word) (pc : Word) :
    fetch (Memory.ofWords 0 image) image.length pc =
      if pc.toNat % 4 = 0 then image.getD (pc.toNat / 4) 0 else 0 := by
  have hread := Memory.readWord_ofWords image 0 (pc.toNat / 4)
  rw [Nat.zero_add] at hread
  by_cases ha : pc.toNat % 4 = 0
  · by_cases hn : pc.toNat / 4 < image.length
    · rw [fetch_inside ((aligned_iff pc).2 ha) (by rwa [wordIndex_eq]), wordIndex_eq, hread, if_pos ha]
    · simp [fetch, wordIndex_eq, hn, ha]
  · simp [fetch, aligned_iff, ha]

/-! ### Launch (rules R45, R130, R133) -/

section Launch
variable (image : List Word) (rf0 : RegFile) (dmem0 : Memory) (cfg : Config)

theorem State.launch_status_current : (State.launch image rf0 dmem0 cfg).status = .ended ↔
    ((State.launch image rf0 dmem0 cfg).pastImage = true ∧ (State.launch image rf0 dmem0 cfg).idle = true) :=
  State.atBoundary_ended_iff _

@[simp] theorem State.launch_idle : (State.launch image rf0 dmem0 cfg).idle = true := rfl

@[simp] theorem State.launch_pastImage_iff : (State.launch image rf0 dmem0 cfg).pastImage = true ↔ image = [] := by
  simp [State.pastImage, wordIndex_eq]

/-- A launch is ended exactly for the empty image (rule R130). -/
theorem State.launch_ended_iff : (State.launch image rf0 dmem0 cfg).status = .ended ↔ image = [] := by
  simp [State.launch_status_current]

variable {dmem0 cfg}

theorem State.launch_inv (hwf : dmem0.wf) (hin : ∀ c ∈ dmem0, c.1 < 4 * cfg.dmemWords) :
    (State.launch image rf0 dmem0 cfg).Inv where
  pcAligned := rfl
  dmemWf := hwf
  dmemInside := hin
  imemWf := Memory.ofWords_wf 0 image
  imemInside := fun c hc => by
    have := Memory.mem_ofWords hc
    rw [State.launch_imageWords]
    omega
  idexLegal := .inl rfl
  exmemLegal := by rw [State.launch_exmem]; decide
  memwbLegal := by rw [State.launch_memwb]; decide
  statusCurrent := State.launch_status_current image rf0 dmem0 cfg

end Launch

/-- Bubbles in every latch leave no instruction that the hazard invariant speaks of. -/
theorem hazardInv_of_bubbles {s : State} (hid : s.idex = .zero) (hex : s.exmem = .zero) : s.HazardInv where
  operandsCurrent := by simp [hid, IdEx.zero]
  noLoadAhead := by simp [hex, ExMem.zero]
  storeDest := by simp [hid, IdEx.zero]
  storeCovered := by simp [hid, IdEx.zero]
  storeValueCurrent := by simp [hex, ExMem.zero]

/-! ### The latches: every stage makes a legal one (rules R36, R79, R95, R99) -/

theorem decodeLatch_legal (cfg : Config) (i : Instr) (rsVal rtVal : Word) :
    (decodeLatch i.fields (rowOf cfg i) rsVal rtVal).Legal := by
  cases hrow : rowOf cfg i with
  | none => exact .inl rfl
  | some c => exact .inr ⟨rowOf_mem_controlRows hrow, fields_imm32 i⟩

/-- What the truth table says of every row it can put into EX/MEM: the conditions of `ExMem.Legal` on its columns. -/
theorem controlRows_exclusive : ∀ c ∈ controlRows,
    ¬(c.memRead = true ∧ c.memWrite = true) ∧ c.memToReg = c.memRead ∧ (c.memRead = true → c.regWrite = true) ∧
      (c.memWrite = true → c.regWrite = false) ∧
      (c.extra1 = .lui → c.memRead = false ∧ c.memWrite = false ∧ c.regWrite = true) := by
  decide

/-- The EX stage makes a legal latch of a legal one, whatever its inputs. -/
theorem execute_legal {l : IdEx} (h : l.Legal) (mode : SltMode) (in1 in2 : Word) :
    (execute mode l in1 in2).Legal := by
  rcases h with rfl | ⟨hrow, -⟩
  · simp [ExMem.Legal, execute, IdEx.zero]
  · exact controlRows_exclusive _ hrow

/-- A MEM/WB latch of a legal EX/MEM latch is legal when only a load brings a memory result. -/
theorem passToMemWb_legal {l : ExMem} (h : l.Legal) {v : Word} (hv : l.memRead = false → v = 0) :
    (passToMemWb l v).Legal := by
  obtain ⟨-, htoReg, hload, -, hlui⟩ := h
  refine ⟨fun hm => hv (htoReg ▸ hm), fun hm => ?_⟩
  have hread : l.memRead = true := htoReg ▸ hm
  refine ⟨hload hread, fun he => ?_⟩
  simp [(hlui he).1] at hread

/-! ### The Memory Stage: what it keeps and makes (rules R50, R51, R95) -/

section MemoryStage
variable {cfg : Config} {exmem : ExMem} {memwb : MemWb} {dmem : Memory} {m : MemWb × Memory}

/-- What an answer of the Memory Stage is: a store, a load, or neither. -/
theorem memoryStage_ok_cases (h : memoryStage cfg exmem memwb dmem = .ok m) :
    (exmem.memWrite = true ∧ wordIndex exmem.aluResult < cfg.dmemWords ∧
      m = (passToMemWb exmem 0, dmem.writeWord (4 * wordIndex exmem.aluResult) (storeValue exmem memwb))) ∨
    (exmem.memRead = true ∧ m = (passToMemWb exmem (dmem.readWord (4 * wordIndex exmem.aluResult)), dmem)) ∨
    m = (passToMemWb exmem 0, dmem) := by
  rcases memoryStage_cases cfg exmem memwb dmem with
    ⟨hw, ha, he⟩ | ⟨-, -, he⟩ | ⟨-, hr, -, he⟩ | ⟨-, -, -, he⟩ | ⟨-, -, he⟩
  · exact .inl ⟨hw, (accessOk_iff.1 ha).2, Except.ok.inj (h.symm.trans he)⟩
  · simp [he] at h
  · exact .inr (.inl ⟨hr, Except.ok.inj (h.symm.trans he)⟩)
  · simp [he] at h
  · exact .inr (.inr (Except.ok.inj (h.symm.trans he)))

/-- A store inside the data memory leaves nothing outside it (rule R55). -/
theorem memoryStage_inside (h : memoryStage cfg exmem memwb dmem = .ok m)
    (hin : ∀ c ∈ dmem, c.1 < 4 * cfg.dmemWords) : ∀ c ∈ m.2, c.1 < 4 * cfg.dmemWords := by
  rcases memoryStage_ok_cases h with ⟨-, hidx, rfl⟩ | ⟨-, rfl⟩ | rfl
  · intro c hc
    rcases Memory.mem_writeWord hc with hc | hc
    · exact hin c hc
    · omega
  · exact hin
  · exact hin

theorem memoryStage_legal (h : memoryStage cfg exmem memwb dmem = .ok m) (hl : exmem.Legal) : m.1.Legal := by
  rcases memoryStage_ok_cases h with ⟨-, -, rfl⟩ | ⟨hr, rfl⟩ | rfl
  · exact passToMemWb_legal hl fun _ => rfl
  · exact passToMemWb_legal hl fun hn => by simp [hr] at hn
  · exact passToMemWb_legal hl fun _ => rfl

end MemoryStage

/-! ### The step -/

/-- Where a next state comes from: an ended run stays as it is, a running one ends the cycle of some instruction. -/
theorem step_next_cases {s t : State} (h : step s = .next t) :
    t = s ∨ ∃ (i : Instr) (m : MemWb × Memory), memoryStage s.cfg s.exmem s.memwb s.dmem = .ok m ∧
      t = s.endOfCycle i.fields (bundleFor i) m := by
  rcases step_cases s with ⟨-, hs⟩ | ⟨-, hs⟩
  · exact .inl (Host.Outcome.next.inj (h.symm.trans hs))
  · obtain ⟨-, m, hm, rfl⟩ := exec_next (hs ▸ h)
    exact .inr ⟨_, m, hm, rfl⟩

/-- The launch inputs that a state carries are the ones of the state before (rule R43). -/
theorem step_keeps_launchInputs {s t : State} (h : step s = .next t) :
    t.imem = s.imem ∧ t.imageWords = s.imageWords ∧ t.cfg = s.cfg := by
  rcases step_next_cases h with rfl | ⟨i, m, -, rfl⟩
  · exact ⟨rfl, rfl, rfl⟩
  · exact ⟨rfl, rfl, rfl⟩

/-- The end of every instruction's cycle meets the invariant that held at its start. -/
theorem State.endOfCycle_inv {s : State} (h : s.Inv) (i : Instr) {m : MemWb × Memory}
    (hm : memoryStage s.cfg s.exmem s.memwb s.dmem = .ok m) : (s.endOfCycle i.fields (bundleFor i) m).Inv where
  pcAligned := nextPc_aligned h.pcAligned _ _ _ _
  dmemWf := memoryStage_wf hm h.dmemWf
  dmemInside := memoryStage_inside hm h.dmemInside
  imemWf := h.imemWf
  imemInside := h.imemInside
  idexLegal := by
    rw [State.endOfCycle_idex]
    split
    · exact .inl rfl
    · exact decodeLatch_legal s.cfg i _ _
  exmemLegal := execute_legal h.idexLegal _ _ _
  memwbLegal := memoryStage_legal hm h.exmemLegal
  statusCurrent := State.endOfCycle_ended_iff s _ _ m

/-! ### Placing an instruction (log entry 7) -/

/-- The low 32 bits of a word's number are the word. -/
theorem tableWord_toNat (w : Word) : tableWord 32 w.toNat = w := by
  rw [tableWord, Nat.mod_eq_of_lt w.isLt, BitVec.ofNat_toNat, BitVec.setWidth_eq]

/-- The word placed is the word in the FD position. -/
theorem State.withFetchWord_fetchWord {s : State} (h : s.imem.wf) (w : Word) :
    (s.withFetchWord 32 w.toNat).fetchWord = w := by
  have hidx := wordIndex_clearLowBits s.pc
  have hlt : wordIndex (s.pc &&& 0xFFFFFFFC#32) < max s.imageWords (wordIndex s.pc + 1) := by omega
  rw [State.fetchWord, State.withFetchWord, fetch_inside (clearLowBits_aligned s.pc) hlt, hidx,
    Memory.readWord_writeWord h, tableWord_toNat]

end Sys2Proof.Machine

namespace Sys2Proof.Proofs

open Sys2Proof.Machine

/-- Settles O12: each clause is kept by the stage that makes its part of the next state (`State.endOfCycle_inv`). -/
theorem stepKeepsTheInvariant : Obligations.StepKeepsTheInvariant := by
  intro s t hinv hstep
  rcases step_next_cases hstep with rfl | ⟨i, m, hm, rfl⟩
  · exact hinv
  · exact State.endOfCycle_inv hinv i hm

/-- Settles O7: the fields by the table of `State.launch`, the fetches by `fetch_ofWords`, the status by the end-of-run
test at PC 0. -/
theorem launchGivesTheResetTable : Obligations.LaunchGivesTheResetTable := by
  intro image rf0 dmem0 cfg
  refine ⟨rfl, ?idex, ?exmem, ?memwb, rfl, rfl, rfl, rfl, fetch_ofWords image, State.launch_ended_iff image rf0 dmem0 cfg⟩
  case idex => rw [State.launch_idex]; decide
  case exmem => rw [State.launch_exmem]; decide
  case memwb => rw [State.launch_memwb]; decide

/-- Settles O9, the base case of both invariants. -/
theorem launchMeetsTheInvariants : Obligations.LaunchMeetsTheInvariants := by
  intro image rf0 dmem0 cfg hwf hin
  exact ⟨State.launch_inv image rf0 hwf hin, hazardInv_of_bubbles rfl rfl⟩

/-- Settles O11: the status is `Running` and the fetch finds the placed word. -/
theorem placedInstructionRunsNext : Obligations.PlacedInstructionRunsNext := by
  intro s w hwf
  rcases step_cases (s.withFetchWord 32 w.toNat) with ⟨hended, -⟩ | ⟨-, hstep⟩
  · cases hended
  · rw [hstep, State.withFetchWord_fetchWord hwf]

/-- Settles O14: the cycle writes neither the instruction memory nor a parameter. -/
theorem launchInputsAreFixedForTheRun : Obligations.LaunchInputsAreFixedForTheRun := by
  intro s t hstep
  obtain ⟨himem, hwords, hcfg⟩ := step_keeps_launchInputs hstep
  exact ⟨himem, hwords, hcfg, fun pc => by rw [himem, hwords]⟩

/-- Settles O8: the reset state is a launch with an empty data memory, so O9 gives its invariants. -/
theorem resetMeetsTheInvariants : Obligations.ResetMeetsTheInvariants := by
  have hlaunch := launchMeetsTheInvariants [] (Vector.replicate 32 0) [] Config.standard Memory.wf_nil (by simp)
  rw [← State.reset_eq_launch] at hlaunch
  obtain ⟨hinv, hhazard⟩ := hlaunch
  exact ⟨hinv, hhazard, by decide, rfl, rfl, rfl, rfl⟩

end Sys2Proof.Proofs

/-! The obligations of the memory family (20_memory.md): the access primitives, and a load in the cycle after a store.
Lemmas first. -/

namespace Sys2Proof.Machine

/-! ### The word-indexed view of a memory (rules R42, R50) -/

/-- A write of one word leaves every other word (rule R51). -/
theorem Memory.readWord_writeWord_ne {m : Memory} (h : m.wf) {j k : Nat} (v : Word) (hk : k ≠ j) :
    (m.writeWord (4 * j) v).readWord (4 * k) = m.readWord (4 * k) :=
  Memory.readWord_writeWord_other h v (by omega)

/-- The word of an aligned address begins at that address. -/
theorem four_mul_wordIndex {addr : Word} (h : addr.toNat % 4 = 0) : 4 * wordIndex addr = addr.toNat := by
  rw [wordIndex_eq]
  omega

/-! ### The access primitives by the access check (rules R50, R51, R120) -/

section Access
variable {cfg : Config} {addr : Word}

/-- The access check as conditions on numbers. -/
theorem accessOk_iff_toNat : accessOk cfg addr = true ↔ addr.toNat % 4 = 0 ∧ addr.toNat / 4 < cfg.dmemWords := by
  rw [accessOk_iff, aligned_iff, wordIndex_eq]

theorem memRead_of_accessOk (h : accessOk cfg addr = true) (m : Memory) :
    memRead cfg m addr = .ok (m.readWord (4 * wordIndex addr)) := by
  simpa [h] using memRead_cases cfg m addr

theorem memRead_of_not_accessOk (h : accessOk cfg addr = false) (m : Memory) :
    memRead cfg m addr = .error (.memFault .load addr) := by
  simpa [h] using memRead_cases cfg m addr

theorem memWrite_of_accessOk (h : accessOk cfg addr = true) (m : Memory) (v : Word) :
    memWrite cfg m addr v = .ok (m.writeWord (4 * wordIndex addr) v) := by
  simpa [h] using memWrite_cases cfg m addr v

theorem memWrite_of_not_accessOk (h : accessOk cfg addr = false) (m : Memory) (v : Word) :
    memWrite cfg m addr v = .error (.memFault .store addr) := by
  simpa [h] using memWrite_cases cfg m addr v

end Access

/-! ### The Memory Stage of a completed cycle (rule R95) -/

section MemoryStage
variable {cfg : Config} {exmem : ExMem} {memwb : MemWb} {dmem : Memory} {m : MemWb × Memory}

/-- The data memory after a store in the MEM position. -/
theorem memoryStage_store (h : memoryStage cfg exmem memwb dmem = .ok m) (hw : exmem.memWrite = true) :
    m.2 = dmem.writeWord (4 * wordIndex exmem.aluResult) (storeValue exmem memwb) := by
  rcases memoryStage_cases cfg exmem memwb dmem with
    ⟨-, -, he⟩ | ⟨-, -, he⟩ | ⟨hn, -⟩ | ⟨hn, -⟩ | ⟨hn, -⟩
  · rw [Except.ok.inj (h.symm.trans he)]
  · simp [he] at h
  all_goals simp [hw] at hn

/-- The memory result of a load in the MEM position. -/
theorem memoryStage_load (h : memoryStage cfg exmem memwb dmem = .ok m) (hr : exmem.memRead = true)
    (hw : exmem.memWrite = false) :
    m.1.memResult = dmem.readWord (4 * wordIndex exmem.aluResult) := by
  rcases memoryStage_cases cfg exmem memwb dmem with
    ⟨hn, -⟩ | ⟨hn, -⟩ | ⟨-, -, -, he⟩ | ⟨-, -, -, he⟩ | ⟨-, hn, -⟩
  · simp [hw] at hn
  · simp [hw] at hn
  · rw [Except.ok.inj (h.symm.trans he)]
    rfl
  · simp [he] at h
  · simp [hr] at hn

end MemoryStage

/-- What the Memory Stage answers is the next state's MEM/WB latch and data memory, whatever is in the FD position. -/
theorem exec_next_memoryStage {i : Instr} {s t : State} (h : exec i s = .next t) :
    memoryStage s.cfg s.exmem s.memwb s.dmem = .ok (t.memwb, t.dmem) := by
  obtain ⟨-, m, hm, rfl⟩ := exec_next h
  exact hm

end Sys2Proof.Machine

namespace Sys2Proof.Proofs

open Sys2Proof.Machine

/-- Settles O32: the second cycle reads the memory that the first one's store made, at the word stored or at another
one. -/
theorem loadSeesTheStoreBefore : Obligations.LoadSeesTheStoreBefore := by
  intro i j s t u hwf hst htu hstore hload hnot
  have hwritten : t.dmem = s.dmem.writeWord (4 * wordIndex s.exmem.aluResult) (storeValue s.exmem s.memwb) :=
    memoryStage_store (exec_next_memoryStage hst) hstore
  have hread : u.memwb.memResult = t.dmem.readWord (4 * wordIndex t.exmem.aluResult) :=
    memoryStage_load (exec_next_memoryStage htu) hload hnot
  rw [hread, hwritten]
  constructor
  · intro hsame
    rw [hsame, Memory.readWord_writeWord hwf]
  · exact Memory.readWord_writeWord_ne hwf _

/-- Settles O35: both primitives go by one access check, whose two conditions are the ones of the statement. -/
theorem accessPrimitives : Obligations.AccessPrimitives := by
  intro cfg m addr v hwf
  constructor
  · intro haligned hinside
    have hok : accessOk cfg addr = true := accessOk_iff_toNat.2 ⟨haligned, hinside⟩
    have hword : 4 * wordIndex addr = addr.toNat := four_mul_wordIndex haligned
    refine ⟨hword ▸ memRead_of_accessOk hok m, _, memWrite_of_accessOk hok m v, Memory.writeWord_wf hwf _ _, ?_, ?_⟩
    · rw [hword, Memory.readWord_writeWord hwf]
    · intro k hk
      exact Memory.readWord_writeWord_ne hwf v (wordIndex_eq addr ▸ hk)
  · intro hbad
    have hnot : accessOk cfg addr = false := by
      rw [Bool.eq_false_iff, ne_eq, accessOk_iff_toNat]
      omega
    exact ⟨memRead_of_not_accessOk hnot m, memWrite_of_not_accessOk hnot m v⟩

end Sys2Proof.Proofs

/-! The obligations of the encoding family (30_encoding.md): the fields of a word, the decoder against the encoder, the
opcode map and the bytes of an instruction. Lemmas first. -/

namespace Sys2Proof

/-! ### The fields of a word (rule R160) -/

/-- The fields an instruction's meaning uses are the slices of its word: the family `FieldsAgree` in one lemma, by
format. -/
theorem sliceWord_encode : ∀ i : Instr, sliceWord (encode i) = i.fields
  | .add .. | .sub .. | .and .. | .or .. | .xor .. | .nor .. | .slt .. | .addu .. | .subu .. | .sltu .. =>
    sliceWord_wordR ..
  | .beq .. | .bne .. | .addi .. | .slti .. | .andi .. | .ori .. | .xori .. | .lui .. | .lw .. | .sw .. | .addiu ..
  | .sltiu .. => sliceWord_wordI ..
  | .j address => sliceWord_wordJ address
  | .unsupported _ => rfl

/-- A slice of a word as a number. -/
theorem toNat_slice (w : Word) (start n : Nat) : (w.extractLsb' start n).toNat = w.toNat / 2 ^ start % 2 ^ n := by
  rw [BitVec.extractLsb'_toNat, Nat.shiftRight_eq_div_pow]

/-- The low bits of a word as a number. -/
theorem toNat_lowSlice (w : Word) (n : Nat) : (w.extractLsb' 0 n).toNat = w.toNat % 2 ^ n := by
  rw [toNat_slice, pow_zero, Nat.div_one]

/-- The opcode is what the 26 low bits leave of a word. -/
theorem sliceWord_opcode_toNat (w : Word) : (sliceWord w).opcode.toNat = w.toNat / 2 ^ 26 := by
  have hw := w.isLt
  rw [sliceWord, toNat_slice]
  omega

theorem sliceWord_funct_toNat (w : Word) : (sliceWord w).funct.toNat = w.toNat % 64 := toNat_lowSlice w 6

/-! ### Decoding after encoding (rules R161 to R168) -/

theorem decodeFunct_unlisted {w : Word} {f : Fields} (h : ∀ n ∈ listedFuncts, f.funct ≠ n) :
    decodeFunct w f = .unsupported w := by
  simp only [listedFuncts, List.forall_mem_cons] at h
  simp [decodeFunct, *]

theorem decodeOpcode_unlisted {w : Word} {f : Fields} (h : ∀ n ∈ 0 :: listedOpcodes, f.opcode ≠ n) :
    decodeOpcode w f = .unsupported w := by
  simp only [listedOpcodes, List.forall_mem_cons, BitVec.ofNat_eq_ofNat] at h
  simp [decodeOpcode, *]

/-- A word that no other row of the opcode table claims decodes to an unsupported encoding (rule R168). -/
theorem decode_of_unclaimed {w : Word} (h : (Instr.unsupported w).wellFormed = true) : decode w = .unsupported w := by
  obtain ⟨hopcode, hfunct⟩ := (wellFormed_unsupported_iff w).1 h
  by_cases h0 : (sliceWord w).opcode = 0
  · rw [decode, decodeOpcode, if_pos h0, decodeFunct_unlisted (hfunct h0)]
  · exact decodeOpcode_unlisted (List.forall_mem_cons.2 ⟨h0, hopcode⟩)

/-- The dispatch on a well-formed instruction's fields finds the instruction: every row but the catch-all has its
numbers in its fields. -/
theorem decode_encode {i : Instr} (h : i.wellFormed = true) : decode (encode i) = i := by
  cases i with
  | unsupported w => exact decode_of_unclaimed h
  | _ => rw [decode, sliceWord_encode]; rfl

/-! ### Encoding after decoding (rule R169) -/

/-- Under opcode 0, what the dispatch on `funct` gives is well-formed and encodes to the word. -/
theorem decodeFunct_encodes {w : Word} (h0 : (sliceWord w).opcode = 0) :
    (decodeFunct w (sliceWord w)).wellFormed = true ∧ encode (decodeFunct w (sliceWord w)) = w := by
  refine decodeFunct_cases (motive := fun i => i.wellFormed = true ∧ encode i = w) w (sliceWord w)
    ?add ?addu ?sub ?subu ?and ?or ?xor ?nor ?slt ?sltu ?unsupported
  case unsupported =>
    intro hfunct
    have hopcode : ∀ n ∈ listedOpcodes, (sliceWord w).opcode ≠ n := by rw [h0]; decide
    exact ⟨(wellFormed_unsupported_iff w).2 ⟨hopcode, fun _ => hfunct⟩, rfl⟩
  all_goals exact fun hfunct => ⟨rfl, wordR_sliceWord h0 hfunct⟩

/-- What a word decodes to is well-formed and encodes to the word. -/
theorem decode_encodes (w : Word) : (decode w).wellFormed = true ∧ encode (decode w) = w := by
  refine decodeOpcode_cases (motive := fun i => i.wellFormed = true ∧ encode i = w) w (sliceWord w)
    ?funct ?j ?beq ?bne ?addi ?addiu ?slti ?sltiu ?andi ?ori ?xori ?lui ?lw ?sw ?unsupported
  case funct => exact decodeFunct_encodes
  case j => exact fun hopcode => ⟨rfl, wordJ_sliceWord hopcode⟩
  case unsupported =>
    intro hopcode
    obtain ⟨h0, hlisted⟩ := List.forall_mem_cons.1 hopcode
    exact ⟨(wellFormed_unsupported_iff w).2 ⟨hlisted, fun h => absurd h h0⟩, rfl⟩
  all_goals exact fun hopcode => ⟨rfl, wordI_sliceWord hopcode⟩

theorem decode_wellFormed (w : Word) : (decode w).wellFormed = true := (decode_encodes w).1

@[simp] theorem encode_decode (w : Word) : encode (decode w) = w := (decode_encodes w).2

theorem decode_fields (w : Word) : (decode w).fields = sliceWord w := by
  rw [← sliceWord_encode, encode_decode]

/-- The decoder gives exactly the one well-formed instruction whose encoding the word is. -/
theorem decode_eq_iff {w : Word} {i : Instr} : decode w = i ↔ i.wellFormed = true ∧ encode i = w := by
  constructor
  · rintro rfl
    exact decode_encodes w
  · rintro ⟨hwf, rfl⟩
    exact decode_encode hwf

/-! ### The bytes of an instruction (rules R160, R170; log entry 3) -/

theorem decodeBytes_bytesOfWord (w : Word) (rest : List Byte) :
    decodeBytes (bytesOfWord w ++ rest) = .ok (decode w, rest) := by
  simp [bytesOfWord, decodeBytes]

theorem decodeBytes_short : ∀ bytes : List Byte, bytes.length < 4 → decodeBytes bytes = .error .truncated
  | [], _ | [_], _ | [_, _], _ | [_, _, _], _ => rfl
  | _ :: _ :: _ :: _ :: _, h => absurd h (by simp)

end Sys2Proof

namespace Sys2Proof.Claims

/-! ### The opcode map (rules R165 to R168) -/

/-- A value apart from those of a list is apart from them as a number. -/
theorem toNat_ne_of_unlisted {v : BitVec 6} {l : List (BitVec 6)} (h : ∀ n ∈ l, v ≠ n) :
    ∀ n ∈ l, v.toNat ≠ n.toNat :=
  fun n hn he => h n hn (BitVec.eq_of_toNat_eq he)

theorem opcodeMap_unlisted_funct {opcode funct : BitVec 6} (h0 : opcode = 0) (h : ∀ n ∈ listedFuncts, funct ≠ n) :
    opcodeMap opcode.toNat funct.toNat = "(unsupported)" := by
  subst h0
  have hnum := toNat_ne_of_unlisted h
  simp only [listedFuncts, List.forall_mem_cons, BitVec.reduceToNat] at hnum
  simp [opcodeMap, hnum]

theorem opcodeMap_unlisted_opcode {opcode : BitVec 6} (h : ∀ n ∈ 0 :: listedOpcodes, opcode ≠ n) (funct : Nat) :
    opcodeMap opcode.toNat funct = "(unsupported)" := by
  have hnum := toNat_ne_of_unlisted h
  simp only [listedOpcodes, List.forall_mem_cons, BitVec.ofNat_eq_ofNat, BitVec.reduceToNat] at hnum
  simp [opcodeMap, hnum]

/-- The opcode map at an instruction's own opcode and funct is its mnemonic. -/
theorem mnemonic_eq_opcodeMap {i : Instr} (h : i.wellFormed = true) :
    i.mnemonic = opcodeMap i.fields.opcode.toNat i.fields.funct.toNat := by
  cases i with
  | unsupported w =>
    obtain ⟨hopcode, hfunct⟩ := (wellFormed_unsupported_iff w).1 h
    by_cases h0 : (sliceWord w).opcode = 0
    · exact (opcodeMap_unlisted_funct h0 (hfunct h0)).symm
    · exact (opcodeMap_unlisted_opcode (List.forall_mem_cons.2 ⟨h0, hopcode⟩) _).symm
  | _ => rfl

end Sys2Proof.Claims

namespace Sys2Proof.Proofs

open Sys2Proof.Machine Sys2Proof.Claims

/-- Settles O4: an instruction's word is sliced into its fields, and the dispatch on them finds it. -/
theorem decodeOfEncode : Obligations.DecodeOfEncode := fun _ => decode_encode

/-- Settles O5: by the branches of the dispatch, a word is assembled from its slices. -/
theorem everyWordEncodesItsInstruction : Obligations.EveryWordEncodesItsInstruction := decode_encodes

/-- Settles O2: each slice as a quotient and remainder; the decoded instruction's fields, since its word is the word. -/
theorem fieldsAreTheWordsBits : Obligations.FieldsAreTheWordsBits := by
  intro w
  have himm32 : (sliceWord w).imm32.toInt = (sliceWord w).imm16.toInt :=
    BitVec.toInt_signExtend_of_le (by decide)
  exact ⟨sliceWord_opcode_toNat w, toNat_slice w 21 5, toNat_slice w 16 5, toNat_slice w 11 5, toNat_slice w 6 5,
    sliceWord_funct_toNat w, toNat_lowSlice w 16, himm32, toNat_lowSlice w 26, decode_fields w⟩

/-- Settles O6: a word's opcode and funct are those of the well-formed instruction it decodes to. -/
theorem opcodeMapGivesTheMnemonic : Obligations.OpcodeMapGivesTheMnemonic := by
  intro w
  rw [mnemonic_eq_opcodeMap (decode_wellFormed w), decode_fields, sliceWord_opcode_toNat, sliceWord_funct_toNat]

/-- Settles O1: each listed instruction is well-formed and encodes to the word beside it (`decode_eq_iff`). -/
theorem specWordsDecode : Obligations.SpecWordsDecode := by
  simp only [Obligations.SpecWordsDecode, decode_eq_iff]
  decide

/-- Settles O3. -/
theorem anInstructionIsFourBytes : Obligations.AnInstructionIsFourBytes :=
  ⟨decodeBytes_bytesOfWord, decodeBytes_short⟩

end Sys2Proof.Proofs

/-! The obligations of the pipeline's front (40_pipeline_front.md): the stall decision, the next PC, and what the
Control/Decode Stage decides of a cycle. Lemmas first: the FD position's functions in the terms of the claims. -/

namespace Sys2Proof.Claims

open Sys2Proof.Machine

/-! ### The stall decision (rules R68, R71, R72) -/

theorem dest_eq_destIdEx (l : IdEx) : l.dest = destIdEx l := ite_not _ _ _

/-- The one-ahead comparison, under either setting of `STORE_SHADOW_MATCH`. -/
theorem match1_iff (cfg : Config) (l : IdEx) (r : RegIdx) :
    match1 cfg l r = true ↔ (cfg.storeShadowMatch = .writeGated → l.regWrite = true) ∧ destIdEx l = r := by
  unfold match1
  cases cfg.storeShadowMatch <;> simp [dest_eq_destIdEx]

theorem match2_iff (l : ExMem) (r : RegIdx) : match2 l r = true ↔ l.regWrite = true ∧ l.dest = r := by
  simp [match2]

theorem storeHazard_iff (f : Fields) (s : State) :
    storeHazard s.cfg f s.idex s.exmem = true ↔ storeRuleStalls f s := by
  simp only [storeHazard, storeRuleStalls, Bool.and_eq_true, beq_iff_eq, Bool.not_eq_true', ← Bool.not_eq_true,
    match1_iff, match2_iff, ← BitVec.toNat_inj (n := 6), BitVec.ofNat_eq_ofNat, BitVec.reduceToNat, and_assoc]

theorem loadUse_iff (f : Fields) (s : State) : loadUse f s.idex = true ↔ loadRuleStalls f s := by
  simp only [loadUse, loadRuleStalls, Bool.and_eq_true, Bool.or_eq_true, beq_iff_eq, decide_eq_true_eq,
    dest_eq_destIdEx, ← BitVec.toNat_inj (n := 6), BitVec.ofNat_eq_ofNat, BitVec.reduceToNat, or_assoc]

theorem stalls_iff (i : Instr) (s : State) :
    stalls i s = true ↔ storeRuleStalls i.fields s ∨ loadRuleStalls i.fields s := by
  rw [stalls, needsStall, Bool.or_eq_true, storeHazard_iff, loadUse_iff]

theorem stalls_eq_false_iff (i : Instr) (s : State) :
    stalls i s = false ↔ ¬(storeRuleStalls i.fields s ∨ loadRuleStalls i.fields s) := by
  rw [← stalls_iff, Bool.not_eq_true]

/-- The opcodes of J and LUI are in no class of rules R68 and R71. -/
theorem stalls_of_jump_or_lui {i : Instr} (s : State) (h : i.fields.opcode.toNat = 2 ∨ i.fields.opcode.toNat = 15) :
    stalls i s = false := by
  rw [stalls_eq_false_iff, storeRuleStalls, loadRuleStalls]
  omega

/-! ### The registers read and the next PC (rules R63, R66, R69, R75 to R77) -/

/-- The value the Write-Back Stage writes, selected by tag (rule R99). -/
theorem written_eq (l : MemWb) :
    l.written = if l.extra1 = .lui then BitVec.ofNat 32 (l.imm16.toNat * 65536)
      else if l.memToReg = true then l.memResult else l.aluResult := by
  unfold MemWb.written
  cases l.extra1 <;> simp [zext32_shiftLeft_16]

theorem readFile_read (s : State) (r : RegIdx) : s.readFile.read r = fdRead s r := by
  unfold State.readFile fdRead
  cases s.cfg.rfWriteBeforeRead
  · simp
  · simp only [if_true, true_and, writeBack_read, written_eq, eq_comm (a := r)]

/-- The Branch Resolver by opcode numbers (rule R75). -/
theorem nextPcKind_eq (f : Fields) (rsVal rtVal : Word) :
    nextPcKind f rsVal rtVal =
      if f.opcode.toNat = 2 then .jump
      else if (f.opcode.toNat = 4 ∧ rsVal = rtVal) ∨ (f.opcode.toNat = 5 ∧ rsVal ≠ rtVal) then .branch
      else .sequential := by
  simp only [nextPcKind, ← BitVec.toNat_inj (n := 6), BitVec.ofNat_eq_ofNat, BitVec.reduceToNat]
  by_cases h4 : f.opcode.toNat = 4
  · simp [h4]
  by_cases h5 : f.opcode.toNat = 5
  · simp [h5]
  · simp [h4, h5]

/-- The PC an issued instruction leads to, its target sums as numbers (rules R69, R76, R77). -/
theorem nextPc_issued (i : Instr) (s : State) :
    nextPc true i.fields s.pc (fdRead s i.fields.rs) (fdRead s i.fields.rt) = issuedPc i.fields s := by
  have hjump : jumpTarget (s.pc + 4) i.fields.address =
      BitVec.ofNat 32 (i.fields.address.toNat * 4 + ((s.pc.toNat + 4) % 2 ^ 32) / 2 ^ 28 * 2 ^ 28) := by
    rw [jumpTarget_eq, pc_add_4, BitVec.toNat_ofNat]
  rw [nextPc, if_pos rfl, nextPcKind_eq, fields_imm32, branchTarget_eq, hjump, pc_add_4, issuedPc]
  split_ifs <;> rfl

/-! ### What a completed cycle leaves in the PC and in ID/EX (rules R69, R78, R80, R81) -/

theorem exec_next_pc {i : Instr} {s t : State} (h : exec i s = .next t) :
    t.pc = if stalls i s = true then s.pc else issuedPc i.fields s := by
  obtain ⟨-, m, -, rfl⟩ := exec_next h
  rw [State.endOfCycle_pc, readFile_read, readFile_read]
  change nextPc (!stalls i s) _ _ _ _ = _
  cases stalls i s
  · exact nextPc_issued i s
  · rfl

theorem exec_next_idex {i : Instr} {s t : State} (h : exec i s = .next t) :
    t.idex = if stalls i s = true then .zero
      else decodeLatch i.fields (rowOf s.cfg i) (fdRead s i.fields.rs) (fdRead s i.fields.rt) := by
  obtain ⟨-, m, -, rfl⟩ := exec_next h
  rw [State.endOfCycle_idex, readFile_read, readFile_read]
  rfl

/-- A completed cycle leaves the image where it was, so the same PC holds the same word (rules R30, R65). -/
theorem exec_next_fetchWord {i : Instr} {s t : State} (h : exec i s = .next t) (hpc : t.pc = s.pc) :
    t.fetchWord = s.fetchWord := by
  obtain ⟨-, m, -, rfl⟩ := exec_next h
  rw [State.fetchWord, hpc]
  rfl

/-! ### Refusal and the access in MEM (rules R83, R120, R121) -/

theorem accessDefined_iff (s : State) : s.accessDefined = true ↔ ¬badAccess s := by
  have hok : accessOk s.cfg s.exmem.aluResult = true ↔
      ¬(s.exmem.aluResult.toNat % 4 ≠ 0 ∨ s.cfg.dmemWords ≤ s.exmem.aluResult.toNat / 4) := by
    rw [accessOk_iff_toNat, not_or, not_not, Nat.not_le]
  rw [State.accessDefined, Bool.or_eq_true, hok, Bool.not_eq_true', ← Bool.not_eq_true, Bool.or_eq_true, badAccess,
    not_and_or]

theorem refuses_iff (cfg : Config) (i : Instr) :
    refuses cfg i = true ↔ uncertain i = true ∧ cfg.uncertainOps = .refuse := by
  simp [refuses]

/-! ### A passage that leaves nothing to write (rules R81, R100) -/

/-- From an idle pipeline, an instruction that takes no row of the control table writes nothing on its way. -/
theorem writesNothing_of_noRow {i : Instr} {s : State} (hidle : s.idle = true) (hr : refuses s.cfg i = false)
    (hrow : rowOf s.cfg i = none) : WritesNothing i s := by
  obtain ⟨u, hu, hidex, hexmem, hmemwb, hrf, hdmem, himem, hwords, hcfg⟩ := firstTwoCycles hidle hr
  have hbubble : u.exmem = .zero := by rw [hexmem, hrow]; rfl
  have hmem : memoryStage u.cfg u.exmem u.memwb u.dmem = .ok (.zero, u.dmem) := by rw [hbubble]; rfl
  obtain ⟨t, ht, trf, tdmem, timem, twords, tcfg, tidle⟩ := lastTwoCycles hidex hmemwb hmem
  refine ⟨t, ?_, fun r => ?_, fun a => ?_, timem.trans himem, twords.trans hwords, tcfg.trans hcfg, tidle⟩
  · rw [throughPipeline, andThen_assoc, hu, andThen_next, ht]
  · rw [trf, writeBack_of_not rfl, hrf]
  · rw [tdmem, hdmem]

end Sys2Proof.Claims

namespace Sys2Proof.Proofs

open Sys2Proof.Machine Sys2Proof.Claims

/-- Settles O20: the Hazard Detector's two signals are the two rules' formulas; LUI and J are in no class of either. -/
theorem stallDecision : Obligations.StallDecision := by
  refine ⟨stalls_iff, fun s rs rt imm address => ⟨?lui, ?j⟩⟩
  case lui => exact stalls_of_jump_or_lui s (.inr rfl)
  case j => exact stalls_of_jump_or_lui s (.inl rfl)

/-- Settles O21: the stalled branch of the next PC and of ID/EX; the word at a held PC is the same. -/
theorem stallHoldsThePc : Obligations.StallHoldsThePc := by
  intro i s t h hstall
  have hs : stalls i s = true := (stalls_iff i s).2 hstall
  have hpc : t.pc = s.pc := by rw [exec_next_pc h, if_pos hs]
  refine ⟨hpc, ?_, ?_⟩
  · rw [exec_next_idex h, if_pos hs]
  · rw [exec_next_fetchWord h hpc]

/-- Settles O22: the Branch Resolver by opcode numbers, the issued branch of the next PC, and the range of a signed
16-bit immediate. -/
theorem issuedWordsResolveTheirNextPc : Obligations.IssuedWordsResolveTheirNextPc := by
  refine ⟨fun i s t h hissues => ⟨nextPcKind_eq _ _ _, ?pc⟩, fun imm => ?reach, by decide, by decide, by decide⟩
  case pc => rw [exec_next_pc h, if_neg ((stalls_iff i s).not.2 hissues)]
  case reach =>
    have hlow := BitVec.le_toInt imm
    have hhigh := BitVec.toInt_lt (x := imm)
    omega

/-- Settles O24: both cycles end the same start-of-cycle state with the one answer of the Memory Stage. -/
theorem fetchedWordTouchesOnlyPcAndIdEx : Obligations.FetchedWordTouchesOnlyPcAndIdEx := by
  intro i j s t u ht hu
  obtain ⟨-, m, hm, rfl⟩ := exec_next ht
  obtain ⟨-, n, hn, rfl⟩ := exec_next hu
  obtain rfl : m = n := Except.ok.inj (hm.symm.trans hn)
  exact ⟨rfl, rfl, rfl, rfl, rfl, rfl, rfl⟩

/-- Settles O27: the next PC of an issued instruction is a function of its fields, the PC and the two values read,
which come from the register file and MEM/WB. -/
theorem branchesSeeOnlyTheRegisterFile : Obligations.BranchesSeeOnlyTheRegisterFile := by
  intro i s s' t t' hpc hrf hmemwb hcfg hs hs' ht ht'
  have hread : ∀ r, fdRead s r = fdRead s' r := fun r => by rw [fdRead, fdRead, hrf, hmemwb, hcfg]
  rw [exec_next_pc ht, exec_next_pc ht', hs, hs', if_neg Bool.false_ne_true, if_neg Bool.false_ne_true, issuedPc,
    issuedPc, hpc, hread, hread]

/-- Settles O31: the settings enter the one-ahead comparison alone, where `write_gated` asks for a write besides. -/
theorem storeShadowSettingsDiffer : Obligations.StoreShadowSettingsDiffer := by
  intro i s cfg cfg' hgated hdest
  have hload (c : Config) : loadRuleStalls i.fields { s with cfg := c } ↔ loadRuleStalls i.fields s := Iff.rfl
  rw [ne_eq, Bool.eq_iff_iff, stalls_iff, stalls_iff, hload, hload, storeRuleStalls, storeRuleStalls, hgated, hdest,
    ← Bool.not_eq_true]
  simp only [forall_const, reduceCtorEq, false_implies, true_and]
  tauto

/-- Settles O47: none of the four takes a row of the control table, so a bubble passes in its place. -/
theorem transfersAndNoOpsWriteNothing : Obligations.TransfersAndNoOpsWriteNothing := by
  intro s rs rt imm address w hidle
  exact ⟨writesNothing_of_noRow hidle rfl rfl, writesNothing_of_noRow hidle rfl rfl,
    writesNothing_of_noRow hidle rfl rfl, writesNothing_of_noRow hidle rfl rfl⟩

/-- Settles O50: the stage's own dispatch finds the bundle of the instruction's meaning (`bundleOf_fields`), so its
outputs are those of the cycle. -/
theorem controlStageDecidesTheCycle : Obligations.ControlStageDecidesTheCycle := by
  intro i s hwf hdefined out
  have haccess : s.accessDefined = true := (accessDefined_iff s).2 hdefined
  have hrefuse : out.refuse = refuses s.cfg i := by rw [← bundleFor_refused, ← bundleOf_fields hwf]; rfl
  have hissued : out.issued = !stalls i s := rfl
  have hidex : out.idex = if stalls i s = true then .zero
      else decodeLatch i.fields (rowOf s.cfg i) (fdRead s i.fields.rs) (fdRead s i.fields.rt) := by
    rw [rowOf, ← bundleOf_fields hwf]; rfl
  rw [hrefuse, hissued, hidex]
  refine ⟨refuses_iff s.cfg i, ?issued, fun hr => ?refused, fun hr => ?next⟩
  case issued => rw [Bool.not_eq_false', stalls_iff]
  case refused =>
    obtain ⟨m, hm⟩ := memoryStage_ok haccess
    rw [exec_of_refuses hr, hm]
  case next =>
    obtain ⟨m, -, h⟩ := exec_completes haccess hr
    refine ⟨_, h, exec_next_idex h, ?_⟩
    rw [exec_next_pc h]
    cases stalls i s <;> rfl

/-- Settles O10: a well-formed instruction is what its word decodes to (`decode_encode`). -/
theorem stepRunsTheFetchedInstruction : Obligations.StepRunsTheFetchedInstruction := by
  intro s
  rcases step_cases s with ⟨hstatus, hstep⟩ | ⟨hstatus, hstep⟩
  · exact ⟨fun i hrunning => by simp [hstatus] at hrunning, fun _ => hstep⟩
  · exact ⟨fun i _ hwf hword => by rw [hstep, hword, decode_encode hwf], fun hended => by simp [hstatus] at hended⟩

/-- Settles O49: the codes of the Branch Resolver's kinds by opcode numbers. -/
theorem branchResolverCodes : Obligations.BranchResolverCodes := by
  intro f rsVal rtVal
  rw [nextPcKind_eq, apply_ite NextPcKind.code, apply_ite NextPcKind.code]
  rfl

end Sys2Proof.Proofs

/-! The obligations of the pipeline's back (41_pipeline_back.md): the ALU, and what every completed cycle leaves in
EX/MEM, MEM/WB, the register file and data memory. Lemmas first. -/

namespace Sys2Proof.Claims

open Sys2Proof.Machine

/-! ### The signed less-than: its exact sum and the sign of the wrapped one (rules R87, R88) -/

theorem alu_slt (mode : SltMode) (negate : Bool) (a b : Word) :
    alu mode .slt negate a b = if lessThan mode negate a b = true then 1 else 0 := rfl

/-- The integer whose sign decides the less-than: a difference under `negate`, else a sum. -/
def exactSum (negate : Bool) (a b : Word) : Int := a.toInt + if negate then -b.toInt else b.toInt

theorem exactSum_true (a b : Word) : exactSum true a b = a.toInt - b.toInt := Int.sub_eq_add_neg.symm

theorem exactSum_bounds (negate : Bool) (a b : Word) :
    -2 ^ 32 ≤ exactSum negate a b ∧ exactSum negate a b < 2 ^ 32 := by
  have := BitVec.le_toInt a
  have := BitVec.toInt_lt (x := a)
  have := BitVec.le_toInt b
  have := BitVec.toInt_lt (x := b)
  unfold exactSum
  split <;> omega

theorem lessThan_exactSign_iff (negate : Bool) (a b : Word) :
    lessThan .exactSign negate a b = true ↔ exactSum negate a b < 0 := decide_eq_true_iff

/-- The 32-bit sum is the exact one brought into the signed range. -/
theorem add_negated_toInt (negate : Bool) (a b : Word) :
    (a + negated negate b).toInt = (exactSum negate a b).bmod (2 ^ 32) := by
  cases negate
  · exact BitVec.toInt_add a b
  · rw [exactSum_true, ← BitVec.toInt_sub, negated, if_pos rfl, BitVec.ofNat_eq_ofNat, BitVec.zero_sub,
      BitVec.sub_eq_add_neg]

theorem lessThan_wrappedSign_iff (negate : Bool) (a b : Word) :
    lessThan .wrappedSign negate a b = true ↔ (exactSum negate a b).bmod (2 ^ 32) < 0 := by
  rw [← add_negated_toInt, BitVec.toInt_neg_iff, lessThan, getLsbD_31, decide_eq_true_iff]
  omega

/-- Below one wrap, bringing an integer into the signed range changes its sign exactly when it was outside. -/
theorem bmod_sign_ne_iff {n : Int} (h : -2 ^ 32 ≤ n ∧ n < 2 ^ 32) :
    ¬(n.bmod (2 ^ 32) < 0 ↔ n < 0) ↔ ¬(-2 ^ 31 ≤ n ∧ n ≤ 2 ^ 31 - 1) := by
  rw [Int.bmod_def]
  split <;> omega

theorem alu_slt_modes_ne_iff (negate : Bool) (a b : Word) :
    alu .wrappedSign .slt negate a b ≠ alu .exactSign .slt negate a b ↔
      ¬(-2 ^ 31 ≤ exactSum negate a b ∧ exactSum negate a b ≤ 2 ^ 31 - 1) := by
  rw [← bmod_sign_ne_iff (exactSum_bounds negate a b), ← lessThan_wrappedSign_iff, ← lessThan_exactSign_iff, alu_slt,
    alu_slt]
  cases lessThan .wrappedSign negate a b <;> cases lessThan .exactSign negate a b <;> decide

theorem alu_slt_exactSign (a b : Word) :
    alu .exactSign .slt true a b = if a.toInt < b.toInt then 1 else 0 := by
  simp only [alu_slt, lessThan_exactSign_iff, exactSum_true, sub_lt_zero]

/-! ### The EX stage (rules R86, R89, R92, R93) -/

/-- The second ALU input by the codes of `ALUsrc` (rule R86). -/
theorem aluInput2_eq (idex : IdEx) (exmem : ExMem) (memwb : MemWb) :
    aluInput2 idex exmem memwb = if idex.aluSrc.code = 1 then idex.imm32
      else if idex.aluSrc.code = 2 then BitVec.ofNat 32 idex.imm16.toNat
      else forward exmem memwb idex.rt idex.rtVal := by
  rw [← zext32_eq_ofNat, aluInput2]
  cases idex.aluSrc <;> rfl

/-- The EX stage's result, its inversion for NOR as a number (rules R89, R93). -/
theorem exResult_eq (mode : SltMode) (idex : IdEx) (in1 in2 : Word) :
    exResult mode idex in1 in2 = if idex.extra1 = .lui then Config.luiExResult in1 idex.imm16
      else if idex.extra1 = .nor then
        BitVec.ofNat 32 (2 ^ 32 - 1 - (alu mode idex.aluOp idex.negate in1 in2).toNat)
      else alu mode idex.aluOp idex.negate in1 in2 := by
  rw [← BitVec.toNat_not, BitVec.ofNat_toNat, BitVec.setWidth_eq, exResult]
  cases idex.extra1 <;> rfl

theorem dest_eq_of_code (l : IdEx) : l.dest = if l.aluSrc.code ≠ 0 then l.rt else l.rd := by
  unfold IdEx.dest
  cases l.aluSrc <;> rfl

theorem execute_zero (mode : SltMode) (in1 in2 : Word) : execute mode .zero in1 in2 = .zero := rfl

/-! ### The Memory Stage without a store or without a load (rules R95, R97) -/

section MemoryStage
variable {cfg : Config} {exmem : ExMem} {memwb : MemWb} {dmem : Memory} {m : MemWb × Memory}

/-- Only a store changes data memory. -/
theorem memoryStage_noStore (h : memoryStage cfg exmem memwb dmem = .ok m) (hw : exmem.memWrite = false) :
    m.2 = dmem := by
  rcases memoryStage_ok_cases h with ⟨hn, -⟩ | ⟨-, rfl⟩ | rfl
  · simp [hw] at hn
  · rfl
  · rfl

/-- Only a load has a memory result, and a store that is tagged as a load too is a store (decision D29). -/
theorem memoryStage_noLoad (h : memoryStage cfg exmem memwb dmem = .ok m)
    (hn : ¬(exmem.memWrite = false ∧ exmem.memRead = true)) : m.1.memResult = 0 := by
  rcases memoryStage_cases cfg exmem memwb dmem with
    ⟨-, -, he⟩ | ⟨-, -, he⟩ | ⟨hw, hr, -⟩ | ⟨hw, hr, -⟩ | ⟨-, -, he⟩
  · rw [Except.ok.inj (h.symm.trans he)]; rfl
  · simp [he] at h
  · exact absurd ⟨hw, hr⟩ hn
  · exact absurd ⟨hw, hr⟩ hn
  · rw [Except.ok.inj (h.symm.trans he)]; rfl

end MemoryStage

/-! ### What a completed cycle leaves behind the FD position (rules R60, R62) -/

section ExecNext
variable {i : Instr} {s t : State} (h : exec i s = .next t)
include h

theorem exec_next_exmem :
    t.exmem = execute s.cfg.sltMode s.idex (aluInput1 s.idex s.exmem s.memwb) (aluInput2 s.idex s.exmem s.memwb) := by
  obtain ⟨-, m, -, rfl⟩ := exec_next h
  rfl

theorem exec_next_memwb : t.memwb = passToMemWb s.exmem t.memwb.memResult :=
  memoryStage_latch (exec_next_memoryStage h)

theorem exec_next_rf : t.rf = writeBack s.memwb s.rf := by
  obtain ⟨-, m, -, rfl⟩ := exec_next h
  rfl

end ExecNext

end Sys2Proof.Claims

namespace Sys2Proof.Proofs

open Sys2Proof.Machine Sys2Proof.Claims

/-- Settles O16: the register file of the next state is the Write-Back Stage's. -/
theorem writeBackIsTheOnlyRegisterWrite : Obligations.WriteBackIsTheOnlyRegisterWrite := by
  intro i s t h r
  simp only [exec_next_rf h, writeBack_read, written_eq, eq_comm (a := r)]

/-- Settles O17: the data memory of the next state is the Memory Stage's, a write of one word for a store. -/
theorem dataMemoryChangesOnlyByTheStoreInMem : Obligations.DataMemoryChangesOnlyByTheStoreInMem := by
  intro i s t hwf h
  have hmem := exec_next_memoryStage h
  refine ⟨memoryStage_wf hmem hwf, fun hstore => ?store, fun hnone a => ?noStore⟩
  case store =>
    have hwritten : t.dmem = s.dmem.writeWord (4 * wordIndex s.exmem.aluResult) (storeValue s.exmem s.memwb) :=
      memoryStage_store hmem hstore
    rw [hwritten]
    exact ⟨Memory.readWord_writeWord hwf _ _, fun a ha => Memory.readByte_writeWord_other hwf _ ha⟩
  case noStore =>
    have hkept : t.dmem = s.dmem := memoryStage_noStore hmem hnone
    rw [hkept]

/-- Settles O18: EX/MEM of the next state is the EX stage's latch; its result, second input and destination by the
codes of the tags. -/
theorem executeStageOfEveryCycle : Obligations.ExecuteStageOfEveryCycle := by
  intro i s t h fwd in1 in2 r
  have hin2 : aluInput2 s.idex s.exmem s.memwb = in2 := aluInput2_eq _ _ _
  rw [exec_next_exmem h, hin2]
  exact ⟨exResult_eq _ _ _ _, dest_eq_of_code _, rfl, rfl, rfl, rfl, rfl, rfl, rfl⟩

/-- Settles O19: MEM/WB of the next state is EX/MEM passed through with the Memory Stage's result. -/
theorem memoryStageFillsMemWb : Obligations.MemoryStageFillsMemWb := by
  intro i s t h
  have hmem := exec_next_memoryStage h
  constructor
  · split
    case isTrue hload =>
      rw [Nat.mul_comm, ← wordIndex_eq]
      exact memoryStage_load hmem hload.2 hload.1
    case isFalse hnot => exact memoryStage_noLoad hmem hnot
  · rw [exec_next_memwb h]
    exact ⟨rfl, rfl, rfl, rfl, rfl, rfl⟩

/-- Settles O23: the zero latch has no access and no result, so both stages pass it on as the zero latch. -/
theorem bubblesStayBubbles : Obligations.BubblesStayBubbles := by
  refine ⟨execute_zero, fun i s t h => ?_⟩
  have hmem := exec_next_memoryStage h
  have hquiet (hr : s.exmem.memRead = false) (hw : s.exmem.memWrite = false) :
      t.dmem = s.dmem ∧ t.memwb.memResult = 0 :=
    ⟨memoryStage_noStore hmem hw, memoryStage_noLoad hmem (by simp [hr])⟩
  refine ⟨fun hidex => ?ex, fun hexmem => ?mem, hquiet⟩
  case ex => rw [exec_next_exmem h, hidex, execute_zero]
  case mem =>
    obtain ⟨hdmem, hresult⟩ := hquiet (by rw [hexmem]; rfl) (by rw [hexmem]; rfl)
    refine ⟨?_, hdmem⟩
    rw [exec_next_memwb h, hresult, hexmem]
    rfl

/-- Settles O30: EX/MEM takes the opaque result (O18), MEM/WB what EX/MEM held (O19), and the register file the value
that MEM/WB's tag selects (O16). -/
theorem luiForwardsItsOpaqueResult : Obligations.LuiForwardsItsOpaqueResult := by
  intro i j k s t u v hlui hwrites hsource hst htu huv l
  obtain ⟨hresult, hdest, -, -, -, hmemToReg, hregWrite, htag, himm⟩ := executeStageOfEveryCycle i s t hst
  obtain ⟨-, hresult', hdest', hmemToReg', hregWrite', htag', himm'⟩ := memoryStageFillsMemWb j t u htu
  have hopaque : t.exmem.aluResult = l := by rw [hresult, if_pos hlui]; rfl
  have hexmem : t.exmem.regWrite = true ∧ t.exmem.dest = destIdEx s.idex :=
    ⟨by rw [hregWrite, hwrites], by rw [hdest, ← dest_eq_of_code, dest_eq_destIdEx]⟩
  have hmemwb : u.memwb.regWrite = true ∧ u.memwb.dest = destIdEx s.idex := by rwa [hregWrite', hdest']
  refine ⟨fun x => ?fromExMem, fun hnearer x => ?fromMemWb, ?written⟩
  case fromExMem => rw [forward, if_pos hexmem, hopaque]
  case fromMemWb =>
    have hnotLoaded : ¬u.memwb.memToReg = true := by simp [hmemToReg', hmemToReg, hsource]
    rw [forward, if_neg hnearer, if_pos hmemwb, MemWb.forwarded, if_neg hnotLoaded, hresult', hopaque]
  case written =>
    have hluiTag : u.memwb.extra1 = .lui := by rw [htag', htag, hlui]
    rw [writeBackIsTheOnlyRegisterWrite k u v huv, if_pos hmemwb, if_pos hluiTag, himm', himm]

/-- Settles O33: each class's operation on `b'` (`negated_eq`), the wrapped sign as a comparison. -/
theorem aluResults : Obligations.AluResults := by
  intro mode negate a b
  simp only [← negated_eq]
  refine ⟨rfl, fun i => BitVec.getLsbD_and, fun i => BitVec.getLsbD_or, fun i => BitVec.getLsbD_xor,
    BitVec.toNat_add _ _, ?wrapped, ?exact, rfl⟩
  case wrapped => rw [alu_slt, lessThan, getLsbD_31, BitVec.toNat_add]; simp only [decide_eq_true_eq]
  case exact => simp only [alu_slt, lessThan_exactSign_iff]; rfl

/-- Settles O34: both settings compare signs, of the exact sum and of it brought into the signed range
(`alu_slt_modes_ne_iff`). -/
theorem sltModesDifferExactlyOnOverflow : Obligations.SltModesDifferExactlyOnOverflow := by
  refine ⟨alu_slt_exactSign, fun a b => ?_, alu_slt_modes_ne_iff false, by decide, by decide, by decide, by decide,
    by decide⟩
  rw [← alu_slt_exactSign, ← exactSum_true]
  exact alu_slt_modes_ne_iff true a b

end Sys2Proof.Proofs

/-! The obligations of the register family (42_alu_register.md): what an issued instruction with a row of the control
table leaves in ID/EX, what such a row leaves in the register file after the whole passage, and the uncertain encodings
beside both. Lemmas first. -/

namespace Sys2Proof.Claims

open Sys2Proof.Machine

/-! ### The row an instruction takes (rules R79, R81, R83) -/

theorem refuses_of_row {cfg : Config} {i : Instr} {c : Control} (h : rowOf cfg i = some c) :
    refuses cfg i = false := by
  rcases Bundle.row_eq_some h with hb | hb
  · rw [← bundleFor_refused, hb]; rfl
  · cases hcfg : cfg.uncertainOps with
    | refuse => simp [rowOf, hb, Bundle.row, hcfg] at h
    | noOp | twin => simp [refuses, hcfg]

theorem bundleFor_of_uncertain {i : Instr} (h : uncertain i = true) : ∃ twin, bundleFor i = .uncertain twin := by
  cases i with
  | addu | subu | sltu | addiu | sltiu => exact ⟨_, rfl⟩
  | _ => cases h

theorem rowOf_uncertain_twin {cfg : Config} {i : Instr} {twin : Control} (hcfg : cfg.uncertainOps = .twin)
    (h : bundleFor i = .uncertain twin) : rowOf cfg i = some twin := by
  rw [rowOf, h, Bundle.row, hcfg]

theorem rowOf_uncertain_noOp {cfg : Config} {i : Instr} (hcfg : cfg.uncertainOps = .noOp)
    (h : uncertain i = true) : rowOf cfg i = none := by
  obtain ⟨twin, hb⟩ := bundleFor_of_uncertain h
  rw [rowOf, hb, Bundle.row, hcfg]

theorem refuses_of_noOp {cfg : Config} (hcfg : cfg.uncertainOps = .noOp) (i : Instr) : refuses cfg i = false := by
  simp [refuses, hcfg]

/-! ### Completion in the FD position (rules R69, R78, R81) -/

/-- An instruction that is no branch, no jump and no unsupported word goes on to `pc + 4` when it issues (rule R75). -/
theorem issuedPc_of_not_clears {i : Instr} (h : bundleFor i ≠ .clears) (s : State) :
    issuedPc i.fields s = s.pc + 4 := by
  rw [pc_add_4]
  cases i with
  | j | beq | bne | unsupported => exact absurd rfl h
  | _ => rfl

theorem exec_issues {i : Instr} {s : State} (haccess : ¬badAccess s) (hr : refuses s.cfg i = false)
    (hs : stalls i s = false) :
    ∃ t, exec i s = .next t ∧ t.pc = issuedPc i.fields s ∧
      t.idex = decodeLatch i.fields (rowOf s.cfg i) (fdRead s i.fields.rs) (fdRead s i.fields.rt) := by
  obtain ⟨m, -, h⟩ := exec_completes ((accessDefined_iff s).2 haccess) hr
  refine ⟨_, h, ?_, ?_⟩
  · rw [exec_next_pc h, hs, if_neg Bool.false_ne_true]
  · rw [exec_next_idex h, hs, if_neg Bool.false_ne_true]

theorem issuesWith_row {i : Instr} {s : State} {c : Control} (haccess : ¬badAccess s)
    (hrow : rowOf s.cfg i = some c) (hs : stalls i s = false) :
    IssuesWith i i.fields.rs i.fields.rt i.fields.rd i.fields.imm16 c s := by
  have hfills : bundleFor i ≠ .clears := fun hb => by simp [rowOf, hb, Bundle.row] at hrow
  obtain ⟨t, ht, hpc, hidex⟩ := exec_issues haccess (refuses_of_row hrow) hs
  refine ⟨t, ht, hpc.trans (issuedPc_of_not_clears hfills s), ?_⟩
  rw [hidex, hrow, ← sext32_eq_ofInt, ← fields_imm32]
  rfl

/-- An uncertain encoding under `no_op` (rules R83, R115). -/
theorem exec_uncertain_noOp {i : Instr} {s : State} (haccess : ¬badAccess s) (hcfg : s.cfg.uncertainOps = .noOp)
    (hu : uncertain i = true) (hs : stalls i s = false) :
    ∃ t, exec i s = .next t ∧ t.idex = .zero ∧ t.pc = s.pc + 4 := by
  obtain ⟨twin, hb⟩ := bundleFor_of_uncertain hu
  obtain ⟨t, ht, hpc, hidex⟩ := exec_issues haccess (refuses_of_noOp hcfg i) hs
  refine ⟨t, ht, ?_, hpc.trans (issuedPc_of_not_clears (by simp [hb]) s)⟩
  rw [hidex, rowOf_uncertain_noOp hcfg hu]
  rfl

/-- The `rd` slice of an immediate, as a number (rule R160). -/
theorem immediate_rd_eq (imm : Imm16) : imm.extractLsb' 11 5 = BitVec.ofNat 5 (imm.toNat / 2 ^ 11) := by
  apply BitVec.eq_of_toNat_eq
  rw [BitVec.extractLsb'_toNat, BitVec.toNat_ofNat, Nat.shiftRight_eq_div_pow]

/-! ### The whole passage of an instruction that computes a register value (rules R61, R89, R95, R99) -/

/-- A row that writes a register and has no access. -/
abbrev ComputesRegister (c : Control) : Prop := c.regWrite = true ∧ c.memRead = false ∧ c.memWrite = false

/-- The ID/EX latch of the row with the register file's values. -/
def rowLatch (i : Instr) (c : Control) (s : State) : IdEx :=
  decodeLatch i.fields (some c) (s.rf.read i.fields.rs) (s.rf.read i.fields.rt)

/-- The MEM/WB latch the row's latch becomes, with nothing forwarded and no access. -/
def isolatedMemWb (i : Instr) (c : Control) (s : State) : MemWb :=
  passToMemWb (execute s.cfg.sltMode (rowLatch i c s) (rowLatch i c s).rsVal (rowLatch i c s).ownInput2) 0

theorem memoryStage_noAccess (cfg : Config) {exmem : ExMem} (memwb : MemWb) (dmem : Memory)
    (hr : exmem.memRead = false) (hw : exmem.memWrite = false) :
    memoryStage cfg exmem memwb dmem = .ok (passToMemWb exmem 0, dmem) := by
  simp [memoryStage, hr, hw]

/-- From an idle pipeline, the one register written is the latch's destination. -/
theorem writesOnly_row {i : Instr} {s : State} {c : Control} (hidle : s.idle = true) (hrow : rowOf s.cfg i = some c)
    (hc : ComputesRegister c) : WritesOnly i (rowLatch i c s).dest (isolatedMemWb i c s).written s := by
  obtain ⟨hwrite, hload, hstore⟩ := hc
  obtain ⟨u, hu, hidex, hexmem, hmemwb, hrf, hdmem, himem, hwords, hcfg⟩ := firstTwoCycles hidle (refuses_of_row hrow)
  rw [hrow] at hexmem
  have hmem : memoryStage u.cfg u.exmem u.memwb u.dmem = .ok (isolatedMemWb i c s, u.dmem) := by
    rw [hexmem]; exact memoryStage_noAccess _ _ _ hload hstore
  obtain ⟨t, ht, trf, tdmem, timem, twords, tcfg, tidle⟩ := lastTwoCycles hidex hmemwb hmem
  refine ⟨t, ?_, fun r => ?_, fun a => ?_, timem.trans himem, twords.trans hwords, tcfg.trans hcfg, tidle⟩
  · rw [throughPipeline, andThen_assoc, hu, andThen_next, ht]
  · rw [trf, writeBack_read, hrf]
    exact if_congr (and_iff_right hwrite) rfl rfl
  · rw [tdmem, hdmem]

/-! ### The values of the rows as numbers (rules R87, R102, R103, R108, R180) -/

theorem sub_eq_ofInt (a b : Word) : a - b = BitVec.ofInt 32 ((a.toNat : Int) - b.toNat) := by
  rw [Int.sub_eq_add_neg, BitVec.ofInt_add, BitVec.ofInt_neg, BitVec.ofInt_natCast, BitVec.ofInt_natCast,
    BitVec.ofNat_toNat, BitVec.ofNat_toNat, BitVec.setWidth_eq, BitVec.setWidth_eq, BitVec.sub_eq_add_neg]

theorem add_negated (a b : Word) : a + negated true b = a - b := by
  rw [negated, if_pos rfl, BitVec.ofNat_eq_ofNat, BitVec.zero_sub, BitVec.sub_eq_add_neg]

theorem add_sext32_eq (a : Word) (imm : Imm16) : a + sext32 imm = BitVec.ofInt 32 (a.toNat + imm.toInt) := by
  rw [sext32_eq_ofInt, BitVec.ofInt_add, BitVec.ofInt_natCast, BitVec.ofNat_toNat, BitVec.setWidth_eq]

theorem alu_slt_eq_sltValue (mode : SltMode) (a b : Word) : alu mode .slt true a b = sltValue mode a b := by
  cases mode with
  | wrappedSign =>
    have hdiff : (a - b).toNat = (a.toNat + 2 ^ 32 - b.toNat) % 2 ^ 32 := by
      have := b.isLt
      rw [BitVec.toNat_sub, Nat.add_comm a.toNat, Nat.sub_add_comm (by omega)]
    simp only [alu_slt, lessThan, getLsbD_31, add_negated, hdiff, decide_eq_true_eq]
    rfl
  | exactSign => exact alu_slt_exactSign a b

/-! ### One row's effect, whichever instruction takes it (rules R79, R83) -/

section RowEffects
variable {i : Instr} {s : State} (hidle : s.idle = true)
include hidle

theorem writesOnly_rowAdd (hrow : rowOf s.cfg i = some rowAdd) :
    WritesOnly i i.fields.rd
      (BitVec.ofNat 32 ((s.rf.read i.fields.rs).toNat + (s.rf.read i.fields.rt).toNat)) s :=
  writesOnly_row hidle hrow (by decide)

theorem writesOnly_rowSub (hrow : rowOf s.cfg i = some rowSub) :
    WritesOnly i i.fields.rd
      (BitVec.ofInt 32 (((s.rf.read i.fields.rs).toNat : Int) - (s.rf.read i.fields.rt).toNat)) s := by
  rw [← sub_eq_ofInt, ← add_negated]
  exact writesOnly_row hidle hrow (by decide)

theorem writesOnly_rowSlt (hrow : rowOf s.cfg i = some rowSlt) :
    WritesOnly i i.fields.rd (sltValue s.cfg.sltMode (s.rf.read i.fields.rs) (s.rf.read i.fields.rt)) s := by
  rw [← alu_slt_eq_sltValue]
  exact writesOnly_row hidle hrow (by decide)

theorem writesOnly_rowAddi (hrow : rowOf s.cfg i = some rowAddi) :
    WritesOnly i i.fields.rt (BitVec.ofInt 32 ((s.rf.read i.fields.rs).toNat + i.fields.imm16.toInt)) s := by
  rw [← add_sext32_eq, ← fields_imm32]
  exact writesOnly_row hidle hrow (by decide)

theorem writesOnly_rowSlti (hrow : rowOf s.cfg i = some rowSlti) :
    WritesOnly i i.fields.rt
      (sltValue s.cfg.sltMode (s.rf.read i.fields.rs) (BitVec.ofInt 32 i.fields.imm16.toInt)) s := by
  rw [← alu_slt_eq_sltValue, ← sext32_eq_ofInt, ← fields_imm32]
  exact writesOnly_row hidle hrow (by decide)

theorem writesNothing_uncertain_noOp (hcfg : s.cfg.uncertainOps = .noOp) (hu : uncertain i = true) :
    WritesNothing i s :=
  writesNothing_of_noRow hidle (refuses_of_noOp hcfg i) (rowOf_uncertain_noOp hcfg hu)

end RowEffects

end Sys2Proof.Claims

namespace Sys2Proof.Proofs

open Sys2Proof.Machine Sys2Proof.Claims

/-- Settles O36: each of the seven takes its row under every setting, and an instruction with a row issues with it
(`issuesWith_row`). -/
theorem registerAluIssues : Obligations.RegisterAluIssues := by
  intro s rs rt rd shamt haccess
  exact ⟨issuesWith_row haccess rfl, issuesWith_row haccess rfl, issuesWith_row haccess rfl,
    issuesWith_row haccess rfl, issuesWith_row haccess rfl, issuesWith_row haccess rfl, issuesWith_row haccess rfl⟩

/-- Settles O41: under `no_op` an uncertain encoding takes no row, under `twin` its twin's. -/
theorem uncertainEncodingsFollowTheParameter : Obligations.UncertainEncodingsFollowTheParameter := by
  intro s rs rt rd shamt imm haccess
  refine ⟨fun hcfg i hi hs => ?noOp, fun hcfg => ?twin⟩
  case noOp =>
    have hu : uncertain i = true := by
      simp only [List.mem_cons, List.not_mem_nil, or_false] at hi
      obtain rfl | rfl | rfl | rfl | rfl := hi <;> rfl
    exact exec_uncertain_noOp haccess hcfg hu hs
  case twin =>
    have htwin {i : Instr} {c : Control} (hb : bundleFor i = .uncertain c) := rowOf_uncertain_twin hcfg hb
    rw [← immediate_rd_eq]
    exact ⟨issuesWith_row haccess (htwin rfl), issuesWith_row haccess (htwin rfl),
      issuesWith_row haccess (htwin rfl), issuesWith_row haccess (htwin rfl), issuesWith_row haccess (htwin rfl)⟩

/-- Settles O42: the effect of each row, the logical ones by unfolding, the arithmetic ones as numbers. -/
theorem registerAluIsolatedEffects : Obligations.RegisterAluIsolatedEffects := by
  intro s rs rt rd shamt hidle a b
  refine ⟨writesOnly_rowAdd hidle rfl, writesOnly_rowSub hidle rfl, ?and, ?or, ?xor, ?nor,
    writesOnly_rowSlt hidle rfl⟩
  case and => exact writesOnly_row (c := rowAnd) hidle rfl (by decide)
  case or => exact writesOnly_row (c := rowOr) hidle rfl (by decide)
  case xor => exact writesOnly_row (c := rowXor) hidle rfl (by decide)
  case nor => exact writesOnly_row (c := rowNor) hidle rfl (by decide)

/-- Settles O48: under `no_op` a bubble passes in the word's place; under `twin` it takes the row of ADD, SUB, SLT, ADDI
or SLTI and has that row's effect. -/
theorem uncertainIsolatedEffects : Obligations.UncertainIsolatedEffects := by
  intro s rs rt rd shamt imm hidle a b
  refine ⟨fun hcfg => ?noOp, fun hcfg => ?twin⟩
  case noOp =>
    exact ⟨writesNothing_uncertain_noOp hidle hcfg rfl, writesNothing_uncertain_noOp hidle hcfg rfl,
      writesNothing_uncertain_noOp hidle hcfg rfl, writesNothing_uncertain_noOp hidle hcfg rfl,
      writesNothing_uncertain_noOp hidle hcfg rfl⟩
  case twin =>
    have htwin {i : Instr} {c : Control} (hb : bundleFor i = .uncertain c) := rowOf_uncertain_twin hcfg hb
    exact ⟨writesOnly_rowAdd hidle (htwin rfl), writesOnly_rowSub hidle (htwin rfl),
      writesOnly_rowSlt hidle (htwin rfl), writesOnly_rowAddi hidle (htwin rfl), writesOnly_rowSlti hidle (htwin rfl)⟩

end Sys2Proof.Proofs

/-! The obligations of the immediate family (43_alu_immediate.md): its six rows in ID/EX, and what they leave in the
register file after the whole passage. The row's lemmas are the register family's. -/

namespace Sys2Proof.Proofs

open Sys2Proof.Machine Sys2Proof.Claims

/-- Settles O37: each of the six takes its row under every setting, and an instruction with a row issues with it
(`issuesWith_row`); LUI's opcode meets neither stall rule. -/
theorem immediateAluIssues : Obligations.ImmediateAluIssues := by
  intro s rs rt imm haccess
  rw [← immediate_rd_eq]
  have hlui : stalls (.lui rs rt imm) s = false := stalls_of_jump_or_lui s (.inr rfl)
  exact ⟨issuesWith_row haccess rfl, issuesWith_row haccess rfl, issuesWith_row haccess rfl,
    issuesWith_row haccess rfl, issuesWith_row haccess rfl, issuesWith_row haccess rfl hlui⟩

/-- Settles O43: the effect of each row. The logical rows take the zero-extended immediate as their second input;
LUI's tag selects the shifted immediate at write-back, so its opaque EX result reaches no register. -/
theorem immediateAluIsolatedEffects : Obligations.ImmediateAluIsolatedEffects := by
  intro s rs rt imm hidle a
  rw [← zext32_eq_ofNat, ← zext32_shiftLeft_16]
  refine ⟨writesOnly_rowAddi hidle rfl, writesOnly_rowSlti hidle rfl, ?and, ?or, ?xor, ?lui⟩
  case and => exact writesOnly_row (c := rowAndi) hidle rfl (by decide)
  case or => exact writesOnly_row (c := rowOri) hidle rfl (by decide)
  case xor => exact writesOnly_row (c := rowXori) hidle rfl (by decide)
  case lui => exact writesOnly_row (c := rowLui) hidle rfl (by decide)

end Sys2Proof.Proofs

/-! The obligations of the load and store family (44_load_store.md): the two rows in ID/EX, and what a defined access
leaves in the register file and in data memory after the whole passage. Lemmas first. -/

namespace Sys2Proof.Machine

/-! ### The Memory Stage on a defined access (rules R95 to R98) -/

section DefinedAccess
variable {cfg : Config} {exmem : ExMem}

theorem memoryStage_definedLoad (memwb : MemWb) (dmem : Memory) (hr : exmem.memRead = true)
    (hw : exmem.memWrite = false) (hok : accessOk cfg exmem.aluResult = true) :
    memoryStage cfg exmem memwb dmem =
      .ok (passToMemWb exmem (dmem.readWord (4 * wordIndex exmem.aluResult)), dmem) := by
  simp [memoryStage, hr, hw, memRead_of_accessOk hok]

theorem memoryStage_definedStore (memwb : MemWb) (dmem : Memory) (hw : exmem.memWrite = true)
    (hok : accessOk cfg exmem.aluResult = true) :
    memoryStage cfg exmem memwb dmem =
      .ok (passToMemWb exmem 0, dmem.writeWord (4 * wordIndex exmem.aluResult) (storeValue exmem memwb)) := by
  simp [memoryStage, hw, memWrite_of_accessOk hok]

/-- With no writer in the WB position a store writes the value read at decode (rules R91, R96). -/
theorem storeValue_of_not {memwb : MemWb} (h : memwb.regWrite = false) (exmem : ExMem) :
    storeValue exmem memwb = exmem.storeVal := by
  simp [storeValue, h]

end DefinedAccess

end Sys2Proof.Machine

namespace Sys2Proof.Claims

open Sys2Proof.Machine

/-! ### The whole passage of an instruction with a row, by what its Memory Stage answers (rule R61) -/

/-- The EX/MEM latch the row's latch becomes, with nothing forwarded. -/
def isolatedExMem (i : Instr) (c : Control) (s : State) : ExMem :=
  execute s.cfg.sltMode (rowLatch i c s) (rowLatch i c s).rsVal (rowLatch i c s).ownInput2

/-- From an idle pipeline, the passage is the row's Memory Stage and the write-back of what that stage answers. The
stage meets no writer in the WB position. -/
theorem throughPipeline_row {i : Instr} {s : State} {c : Control} {m : MemWb × Memory} (hidle : s.idle = true)
    (hrow : rowOf s.cfg i = some c)
    (hm : ∀ memwb : MemWb, memwb.regWrite = false →
      memoryStage s.cfg (isolatedExMem i c s) memwb s.dmem = .ok m) :
    ∃ t, throughPipeline i s = .next t ∧ t.rf = writeBack m.1 s.rf ∧ t.dmem = m.2 ∧ t.imem = s.imem ∧
      t.imageWords = s.imageWords ∧ t.cfg = s.cfg ∧ t.idle = true := by
  obtain ⟨u, hu, hidex, hexmem, hmemwb, hrf, hdmem, himem, hwords, hcfg⟩ := firstTwoCycles hidle (refuses_of_row hrow)
  rw [hrow] at hexmem
  have hmem : memoryStage u.cfg u.exmem u.memwb u.dmem = .ok m := by
    rw [hcfg, hexmem, hdmem]
    exact hm u.memwb hmemwb
  obtain ⟨t, ht, trf, tdmem, timem, twords, tcfg, tidle⟩ := lastTwoCycles hidex hmemwb hmem
  refine ⟨t, ?_, hrf ▸ trf, tdmem, timem.trans himem, twords.trans hwords, tcfg.trans hcfg, tidle⟩
  rw [throughPipeline, andThen_assoc, hu, andThen_next, ht]

/-- LW and SW add their sign-extended immediate to `x[rs]` (rules R87, R140, R141). -/
theorem isolatedExMem_aluResult {c : Control} (hc : c = rowLw ∨ c = rowSw) (i : Instr) (s : State) :
    (isolatedExMem i c s).aluResult = effectiveAddress s i.fields.rs i.fields.imm16 := by
  rw [effectiveAddress, ← add_sext32_eq, ← fields_imm32]
  obtain rfl | rfl := hc <;> rfl

end Sys2Proof.Claims

namespace Sys2Proof.Proofs

open Sys2Proof.Machine Sys2Proof.Claims

/-- Settles O38: each of the two takes its row under every setting, and an instruction with a row issues with it
(`issuesWith_row`). -/
theorem loadStoreIssues : Obligations.LoadStoreIssues := by
  intro s rs rt imm haccess
  rw [← immediate_rd_eq]
  exact ⟨issuesWith_row haccess rfl, issuesWith_row haccess rfl⟩

/-- Settles O44: the Memory Stage brings the word at the effective address, and the latch's destination is `rt`. -/
theorem loadWordIsolatedEffect : Obligations.LoadWordIsolatedEffect := by
  intro s rs rt imm hidle haligned hinside
  have haddr : (isolatedExMem (.lw rs rt imm) rowLw s).aluResult = effectiveAddress s rs imm :=
    isolatedExMem_aluResult (.inl rfl) _ s
  have hok : accessOk s.cfg (isolatedExMem (.lw rs rt imm) rowLw s).aluResult = true :=
    haddr ▸ accessOk_iff_toNat.2 ⟨haligned, hinside⟩
  obtain ⟨t, ht, hrf, hdmem, hkept⟩ :=
    throughPipeline_row hidle rfl fun memwb _ => memoryStage_definedLoad memwb s.dmem rfl rfl hok
  refine ⟨t, ht, fun r => ?_, fun a => by rw [hdmem], hkept⟩
  rw [hrf, writeBack_read, haddr, ← four_mul_wordIndex haligned]
  exact if_congr (and_iff_right rfl) rfl rfl

/-- Settles O45: the Memory Stage writes `x[rt]` as read at decode, since nothing in WB stands for it, and SW's row
writes no register. -/
theorem storeWordIsolatedEffect : Obligations.StoreWordIsolatedEffect := by
  intro s rs rt imm hidle hwf a haligned hinside
  have haddr : (isolatedExMem (.sw rs rt imm) rowSw s).aluResult = effectiveAddress s rs imm :=
    isolatedExMem_aluResult (.inr rfl) _ s
  have hok : accessOk s.cfg (isolatedExMem (.sw rs rt imm) rowSw s).aluResult = true :=
    haddr ▸ accessOk_iff_toNat.2 ⟨haligned, hinside⟩
  obtain ⟨t, ht, hrf, hdmem, hkept⟩ := throughPipeline_row hidle rfl fun memwb hmemwb =>
    storeValue_of_not hmemwb _ ▸ memoryStage_definedStore memwb s.dmem rfl hok
  have hstored : t.dmem = s.dmem.writeWord a (s.rf.read rt) := by
    rw [hdmem, haddr, four_mul_wordIndex haligned]
    rfl
  refine ⟨t, ht, ?word, fun b hb => ?others, fun r => ?registers, hkept⟩
  case word => rw [hstored, Memory.readWord_writeWord hwf]
  case others => rw [hstored, Memory.readByte_writeWord_other hwf _ hb]
  case registers => rw [hrf, writeBack_of_not rfl]

end Sys2Proof.Proofs

/-! The obligation of the control-transfer family (45_control_transfer.md): what an issued instruction with no control
row leaves, and the next PC of the two branches. Lemmas first. -/

namespace Sys2Proof.Claims

open Sys2Proof.Machine

/-- The instructions whose bundle is the zero latch (BEQ, BNE, J, unsupported words) complete with it when they issue
(rule R81). -/
theorem exec_issues_of_clears {i : Instr} {s : State} (haccess : ¬badAccess s) (hb : bundleFor i = .clears)
    (hs : stalls i s = false) : ∃ t, exec i s = .next t ∧ t.idex = .zero ∧ t.pc = issuedPc i.fields s := by
  have hr : refuses s.cfg i = false := by rw [← bundleFor_refused, hb]; rfl
  have hrow : rowOf s.cfg i = none := by rw [rowOf, hb]; rfl
  obtain ⟨t, ht, hpc, hidex⟩ := exec_issues haccess hr hs
  refine ⟨t, ht, ?_, hpc⟩
  rw [hidex, hrow]
  rfl

/-- BEQ's next PC (rules R75, R76, R150). -/
theorem issuedPc_beq (rs rt : RegIdx) (imm : Imm16) (s : State) : issuedPc (Instr.beq rs rt imm).fields s =
    if fdRead s rs = fdRead s rt then BitVec.ofInt 32 (s.pc.toNat + 4 + 4 * imm.toInt) else s.pc + 4 := by
  rw [pc_add_4]
  simp [issuedPc, Instr.fields, fieldsI]

/-- BNE's next PC (rules R75, R76, R151). -/
theorem issuedPc_bne (rs rt : RegIdx) (imm : Imm16) (s : State) : issuedPc (Instr.bne rs rt imm).fields s =
    if fdRead s rs = fdRead s rt then s.pc + 4 else BitVec.ofInt 32 (s.pc.toNat + 4 + 4 * imm.toInt) := by
  rw [pc_add_4]
  simp [issuedPc, Instr.fields, fieldsI]

end Sys2Proof.Claims

namespace Sys2Proof.Proofs

open Sys2Proof.Machine Sys2Proof.Claims

/-- Settles O39: each of the three leaves the zero latch when it issues (`exec_issues_of_clears`), the branches' next PC
by the comparison of the two values read; J's opcode meets neither stall rule. -/
theorem controlTransfersComplete : Obligations.ControlTransfersComplete := by
  intro s rs rt imm address haccess
  have hj : stalls (.j address) s = false := stalls_of_jump_or_lui s (.inl rfl)
  rw [← issuedPc_beq, ← issuedPc_bne]
  exact ⟨exec_issues_of_clears haccess rfl, exec_issues_of_clears haccess rfl,
    exec_issues_of_clears haccess rfl hj⟩

end Sys2Proof.Proofs

/-! The obligation of the unsupported family (46_unsupported.md): an issued word that no row of the opcode table claims
leaves the zero latch and goes on to `pc + 4`. Its next PC first. -/

namespace Sys2Proof.Claims

open Sys2Proof.Machine

/-- An unsupported word's opcode is no jump's and no branch's, so it goes on to `pc + 4` (rules R75, R115). -/
theorem issuedPc_unsupported {w : Word} (h : (Instr.unsupported w).wellFormed = true) (s : State) :
    issuedPc (Instr.unsupported w).fields s = s.pc + 4 := by
  have hopcode := toNat_ne_of_unlisted ((wellFormed_unsupported_iff w).1 h).1
  have hj : (sliceWord w).opcode.toNat ≠ 2 := hopcode 2 (by decide)
  have hbeq : (sliceWord w).opcode.toNat ≠ 4 := hopcode 4 (by decide)
  have hbne : (sliceWord w).opcode.toNat ≠ 5 := hopcode 5 (by decide)
  rw [pc_add_4]
  simp [issuedPc, Instr.fields, hj, hbeq, hbne]

end Sys2Proof.Claims

namespace Sys2Proof.Proofs

open Sys2Proof.Machine Sys2Proof.Claims

/-- Settles O40: the word's bundle is the zero latch (`exec_issues_of_clears`), its next PC `issuedPc_unsupported`. -/
theorem unsupportedWordsAreNoOps : Obligations.UnsupportedWordsAreNoOps := by
  intro s w hwf haccess hs
  rw [← issuedPc_unsupported hwf s]
  exact exec_issues_of_clears haccess rfl hs

end Sys2Proof.Proofs

/-! The obligations of the exception family (60_exceptions.md): the outcome of every cycle, and the fault that ends the
passage of an LW or SW whose access is not defined. Lemmas first. -/

namespace Sys2Proof.Claims

open Sys2Proof.Machine

/-! ### The fault of the access in the MEM position (rules R120, R124) -/

/-- The Memory Stage answers only a defined access, so with an undefined one it faults; `memWrite` is tested first
(decision D29). -/
theorem memoryStage_of_badAccess {s : State} (h : badAccess s) :
    memoryStage s.cfg s.exmem s.memwb s.dmem =
      .error (.memFault (if s.exmem.memWrite then .store else .load) s.exmem.aluResult) := by
  have hno (m : MemWb × Memory) : memoryStage s.cfg s.exmem s.memwb s.dmem ≠ .ok m := fun hm =>
    (accessDefined_iff s).1 (accessDefined_of_ok hm) h
  rcases memoryStage_cases s.cfg s.exmem s.memwb s.dmem with
    ⟨-, -, he⟩ | ⟨hw, -, he⟩ | ⟨-, -, -, he⟩ | ⟨hw, -, -, he⟩ | ⟨-, -, he⟩
  · exact absurd he (hno _)
  · rw [he, if_pos hw]
  · exact absurd he (hno _)
  · rw [he, hw, if_neg Bool.false_ne_true]
  · exact absurd he (hno _)

/-- The fault wins over whatever the FD position would do: no premise on the instruction. -/
theorem exec_of_badAccess {s : State} (h : badAccess s) (i : Instr) :
    exec i s = .fault (.memFault (if s.exmem.memWrite then .store else .load) s.exmem.aluResult) := by
  rw [exec_eq_cycle, cycle, memoryStage_of_badAccess h]

/-- The whole passage, from an idle pipeline, of an instruction whose row has an access that is not defined: the third
cycle faults. -/
theorem throughPipeline_of_badAccess {i : Instr} {s : State} {c : Control} (hidle : s.idle = true)
    (hrow : rowOf s.cfg i = some c) (haccess : c.memRead = true ∨ c.memWrite = true)
    (hbad : (isolatedExMem i c s).aluResult.toNat % 4 ≠ 0 ∨
      s.cfg.dmemWords ≤ (isolatedExMem i c s).aluResult.toNat / 4) :
    throughPipeline i s =
      .fault (.memFault (if c.memWrite then .store else .load) (isolatedExMem i c s).aluResult) := by
  obtain ⟨u, hu, -, hexmem, -, -, -, -, -, hcfg⟩ := firstTwoCycles hidle (refuses_of_row hrow)
  rw [hrow] at hexmem
  change u.exmem = isolatedExMem i c s at hexmem
  have hu_bad : badAccess u := by
    rw [badAccess, hexmem, hcfg]
    exact ⟨haccess, hbad⟩
  rw [throughPipeline, hu, andThen_next, exec_of_badAccess hu_bad, hexmem]
  rfl

end Sys2Proof.Claims

namespace Sys2Proof.Proofs

open Sys2Proof.Machine Sys2Proof.Claims

/-- Settles O15: the Memory Stage is asked first (`exec_of_badAccess`); where it answers, the Control/Decode Stage's
refusal decides (`exec_of_refuses`, `exec_completes`). -/
theorem outcomeOfEveryCycle : Obligations.OutcomeOfEveryCycle := by
  intro i s
  refine ⟨fun hbad => exec_of_badAccess hbad i, fun hdefined hu hcfg => ?refused, fun hdefined haccepted => ?completes⟩
  case refused =>
    obtain ⟨m, hm⟩ := memoryStage_ok ((accessDefined_iff s).2 hdefined)
    rw [exec_of_refuses ((refuses_iff s.cfg i).2 ⟨hu, hcfg⟩), hm]
  case completes =>
    have hr : refuses s.cfg i = false :=
      Bool.eq_false_iff.2 fun hr => ((refuses_iff s.cfg i).1 hr).elim haccepted
    obtain ⟨m, -, ht⟩ := exec_completes ((accessDefined_iff s).2 hdefined) hr
    exact ⟨_, ht⟩

/-- Settles O46: LW's row reads and SW's row writes, both at the effective address, so each passage ends in the fault of
its access (`throughPipeline_of_badAccess`). -/
theorem undefinedAccessesFault : Obligations.UndefinedAccessesFault := by
  intro s rs rt imm hidle hbad
  have hload : (isolatedExMem (.lw rs rt imm) rowLw s).aluResult = effectiveAddress s rs imm :=
    isolatedExMem_aluResult (.inl rfl) _ s
  have hstore : (isolatedExMem (.sw rs rt imm) rowSw s).aluResult = effectiveAddress s rs imm :=
    isolatedExMem_aluResult (.inr rfl) _ s
  exact ⟨hload ▸ throughPipeline_of_badAccess hidle rfl (.inl rfl) (hload.symm ▸ hbad),
    hstore ▸ throughPipeline_of_badAccess hidle rfl (.inr rfl) (hstore.symm ▸ hbad)⟩

end Sys2Proof.Proofs

/-! The obligations of the reset and hazard family (70_reset_and_hazards.md): the hazard invariant and what it gives the
forwarding and the stores, the bound on stalls, the end of a run, and the host's run. Lemmas first. -/

namespace Sys2Proof.Machine

/-! ### The fields that the EX stage and the Memory Stage pass on (rules R89, R95) -/

section Passed
variable (mode : SltMode) (l : IdEx) (in1 in2 : Word) (x : ExMem) (v : Word)

@[simp] theorem execute_dest : (execute mode l in1 in2).dest = l.dest := rfl
@[simp] theorem execute_storeVal : (execute mode l in1 in2).storeVal = l.rtVal := rfl
@[simp] theorem execute_memRead : (execute mode l in1 in2).memRead = l.memRead := rfl
@[simp] theorem execute_memWrite : (execute mode l in1 in2).memWrite = l.memWrite := rfl
@[simp] theorem execute_regWrite : (execute mode l in1 in2).regWrite = l.regWrite := rfl

@[simp] theorem passToMemWb_aluResult : (passToMemWb x v).aluResult = x.aluResult := rfl
@[simp] theorem passToMemWb_dest : (passToMemWb x v).dest = x.dest := rfl
@[simp] theorem passToMemWb_memToReg : (passToMemWb x v).memToReg = x.memToReg := rfl
@[simp] theorem passToMemWb_regWrite : (passToMemWb x v).regWrite = x.regWrite := rfl
@[simp] theorem passToMemWb_extra1 : (passToMemWb x v).extra1 = x.extra1 := rfl

end Passed

end Sys2Proof.Machine

namespace Sys2Proof.Claims

open Sys2Proof.Machine

/-! ### What an issued instruction leaves in ID/EX (rules R63, R66, R68, R71) -/

section Issued
variable {i : Instr} {s t : State} {c : Control}

/-- Under write-before-read the FD position reads the register file as the cycle leaves it. -/
theorem fdRead_eq_read (hrf : s.cfg.rfWriteBeforeRead = true) (h : exec i s = .next t) (r : RegIdx) :
    fdRead s r = t.rf.read r := by
  rw [← readFile_read, State.readFile, if_pos hrf, exec_next_rf h]

/-- A latch in ID/EX that writes a register or stores is the row of an instruction that did not stall. -/
theorem exec_next_idex_of_active (hrf : s.cfg.rfWriteBeforeRead = true) (h : exec i s = .next t)
    (hactive : t.idex.regWrite = true ∨ t.idex.memWrite = true) :
    ∃ c, rowOf s.cfg i = some c ∧ stalls i s = false ∧
      t.idex = decodeLatch i.fields (some c) (t.rf.read i.fields.rs) (t.rf.read i.fields.rt) := by
  have hidex := exec_next_idex h
  rw [fdRead_eq_read hrf h, fdRead_eq_read hrf h] at hidex
  have hnotZero : t.idex ≠ .zero := fun hz => by simp [hz, IdEx.zero] at hactive
  cases hs : stalls i s with
  | true => exact absurd (by rw [hidex, if_pos hs]) hnotZero
  | false =>
    rw [hs, if_neg Bool.false_ne_true] at hidex
    cases hrow : rowOf s.cfg i with
    | none => exact absurd (by rw [hidex, hrow]; rfl) hnotZero
    | some c => exact ⟨c, rfl, rfl, by rw [hidex, hrow]⟩

/-- A load in EX writes no register that an issued row other than LUI's takes as an ALU input. -/
theorem load_dest_ne_of_issued (hrow : rowOf s.cfg i = some c) (hs : stalls i s = false)
    (hload : s.idex.memRead = true) (hlui : c.extra1 ≠ .lui) :
    s.idex.dest ≠ i.fields.rs ∧ (c.aluSrc = .reg → s.idex.dest ≠ i.fields.rt) := by
  obtain ⟨-, hno⟩ := not_or.1 ((stalls_eq_false_iff i s).1 hs)
  rw [loadRuleStalls, ← dest_eq_destIdEx] at hno
  rcases rowOf_class hrow with hl | ⟨hopcode, -⟩ | ⟨hclass, hsrc⟩
  · exact absurd hl hlui
  · have hzero : i.fields.opcode.toNat = 0 := by rw [hopcode]; rfl
    exact ⟨fun hd => hno ⟨hload, .inl ⟨hzero, .inl hd⟩⟩, fun _ hd => hno ⟨hload, .inl ⟨hzero, .inr hd⟩⟩⟩
  · exact ⟨fun hd => hno ⟨hload, .inr (.inr ⟨hclass, hd⟩)⟩, fun hreg => absurd hreg hsrc⟩

/-- A store that issues behind a writer of its register in MEM has a writer of it in EX (`write_gated`). -/
theorem store_covered_of_issued (hgated : s.cfg.storeShadowMatch = .writeGated) (hrow : rowOf s.cfg i = some c)
    (hs : stalls i s = false) (hstore : c.memWrite = true)
    (hmem : s.exmem.regWrite = true ∧ s.exmem.dest = i.fields.rt) :
    s.idex.regWrite = true ∧ s.idex.dest = i.fields.rt := by
  obtain ⟨hno, -⟩ := not_or.1 ((stalls_eq_false_iff i s).1 hs)
  have hopcode : i.fields.opcode.toNat = 43 := by rw [(rowOf_memWrite hrow hstore).1]; rfl
  by_contra hnone
  refine hno ⟨hopcode, fun ⟨hwrites, hdest⟩ => hnone ⟨hwrites hgated, ?_⟩, hmem⟩
  rw [dest_eq_destIdEx, hdest]

end Issued

/-! ### The hazard invariant (rule R134) -/

/-- A store in EX with no writer of its register in MEM holds the value that the register file has at the end of the
cycle: a writer in WB would have one in MEM behind it (`storeCovered`). -/
theorem storeVal_current_of_hazardInv {i : Instr} {s t : State} (hinv : s.HazardInv) (h : exec i s = .next t)
    (hstore : s.idex.memWrite = true) (hnone : ¬(s.exmem.regWrite = true ∧ s.exmem.dest = s.idex.dest)) :
    s.idex.rtVal = t.rf.read s.idex.dest := by
  obtain ⟨-, hrt⟩ := hinv.operandsCurrent (.inr hstore)
  have hdest := hinv.storeDest hstore
  rw [hdest] at hnone ⊢
  rw [exec_next_rf h, writeBack_read, if_neg, hrt]
  exact fun ⟨hwrites, heq⟩ => hnone (hinv.storeCovered hstore hwrites heq.symm)

/-- Every completed cycle keeps the hazard invariant, whatever is in the FD position: the clauses on ID/EX by what an
issued instruction leaves there, the one on EX/MEM by the clauses on ID/EX before. -/
theorem exec_keeps_hazardInv {i : Instr} {s t : State} (hrf : s.cfg.rfWriteBeforeRead = true)
    (hgated : s.cfg.storeShadowMatch = .writeGated) (hinv : s.HazardInv) (h : exec i s = .next t) : t.HazardInv where
  operandsCurrent hactive := by
    obtain ⟨c, -, -, hidex⟩ := exec_next_idex_of_active hrf h hactive
    rw [hidex]
    exact ⟨rfl, rfl⟩
  noLoadAhead hload hactive hlui := by
    obtain ⟨c, hrow, hs, hidex⟩ := exec_next_idex_of_active hrf h hactive
    rw [exec_next_exmem h, execute_memRead] at hload
    rw [hidex] at hlui ⊢
    rw [exec_next_exmem h, execute_dest]
    exact load_dest_ne_of_issued hrow hs hload hlui
  storeDest hstore := by
    obtain ⟨c, hrow, -, hidex⟩ := exec_next_idex_of_active hrf h (.inr hstore)
    rw [hidex] at hstore ⊢
    obtain ⟨-, hsrc⟩ := rowOf_memWrite hrow hstore
    exact if_pos (by simp [decodeLatch, hsrc])
  storeCovered hstore hwrites hdest := by
    obtain ⟨c, hrow, hs, hidex⟩ := exec_next_idex_of_active hrf h (.inr hstore)
    rw [hidex] at hstore hdest ⊢
    rw [exec_next_memwb h, passToMemWb_regWrite] at hwrites
    rw [exec_next_memwb h, passToMemWb_dest] at hdest
    rw [exec_next_exmem h, execute_regWrite, execute_dest]
    exact store_covered_of_issued hgated hrow hs hstore ⟨hwrites, hdest⟩
  storeValueCurrent hstore hnone := by
    rw [exec_next_exmem h, execute_memWrite] at hstore
    rw [exec_next_memwb h, exec_next_exmem h, passToMemWb_regWrite, passToMemWb_dest, execute_dest] at hnone
    rw [exec_next_exmem h, execute_storeVal, execute_dest]
    exact storeVal_current_of_hazardInv hinv h hstore hnone

/-! ### What is forwarded against what is written back (rules R85, R96, R99) -/

/-- Apart from LUI, a MEM/WB latch forwards the value it writes. -/
theorem written_eq_forwarded {l : MemWb} (h : l.extra1 ≠ .lui) : l.written = l.forwarded := by
  rw [written_eq, if_neg h, MemWb.forwarded]

/-- Where neither older instruction is LUI and the one in MEM is no load of the register, one resolver gives what the
register holds when both have written back. -/
theorem forward_eq_read_after {i j : Instr} {s t u : State} (ht : exec i s = .next t) (hu : exec j t = .next u)
    (hexmem : s.exmem.extra1 ≠ .lui) (hmemwb : s.memwb.extra1 ≠ .lui) {r : RegIdx}
    (hnoLoad : s.exmem.dest = r → s.exmem.memToReg = false) :
    forward s.exmem s.memwb r (s.rf.read r) = u.rf.read r := by
  have hnear : t.memwb.written = t.memwb.forwarded :=
    written_eq_forwarded (by rwa [exec_next_memwb ht, passToMemWb_extra1])
  rw [exec_next_rf hu, exec_next_rf ht, writeBack_read, writeBack_read, hnear, written_eq_forwarded hmemwb,
    exec_next_memwb ht, forward]
  simp only [passToMemWb_regWrite, passToMemWb_dest, eq_comm (a := r)]
  split_ifs with hwrites
  · simp [MemWb.forwarded, hnoLoad hwrites.2]
  · rfl
  · rfl

/-! ### The end of a run (rule R133) -/

theorem pastImage_iff (s : State) : s.pastImage = true ↔ s.imageWords ≤ s.pc.toNat / 4 := by
  rw [State.pastImage, decide_eq_true_eq, wordIndex_eq]

/-- Past the image the FD position holds the no-op (rules R30, R115). -/
theorem decode_fetchWord_of_pastImage {s : State} (h : s.imageWords ≤ s.pc.toNat / 4) : decode s.fetchWord = noOp := by
  have hzero : s.fetchWord = 0 := if_neg (by simp [wordIndex_eq, h])
  rw [hzero]
  decide

theorem noOp_wellFormed : noOp.wellFormed = true := by decide

/-- Behind nothing that writes a register or reads memory, nothing stalls. -/
theorem stalls_of_idle {s : State} (h : s.idle = true) (i : Instr) : stalls i s = false := by
  obtain ⟨⟨-, hload, -⟩, ⟨hwrites, -, -⟩, -⟩ := (idle_iff s).1 h
  simp [stalls_eq_false_iff, storeRuleStalls, loadRuleStalls, hload, hwrites]

/-- A no-op behind an idle pipeline changes no register and no memory and leaves it idle. -/
theorem exec_noOp_of_idle {s : State} (h : s.idle = true) :
    ∃ t, exec noOp s = .next t ∧ t.rf = s.rf ∧ t.dmem = s.dmem ∧ t.idle = true ∧ t.pc = s.pc + 4 := by
  obtain ⟨hidex, ⟨hwrites, hload, hstore⟩, hmemwb⟩ := (idle_iff s).1 h
  have ht := exec_of_mem_idle (i := noOp) rfl hload hstore
  refine ⟨_, ht, writeBack_of_not hmemwb _, rfl, ?idle, ?pc⟩
  case idle =>
    rw [idle_iff, noOp_idex]
    exact ⟨⟨rfl, rfl, rfl⟩, hidex, hwrites⟩
  case pc =>
    rw [exec_next_pc ht, stalls_of_idle h, if_neg Bool.false_ne_true]
    exact issuedPc_unsupported noOp_wellFormed s

/-! ### The host's run (rules R132, R145) -/

/-- A state ends the run or can complete a cycle. -/
theorem endsWith_or_next (s : State) :
    (∃ e, EndsWith s e) ∨ (s.status = .running ∧ ∃ t, step s = .next t) := by
  cases hs : s.status with
  | ended => exact .inl ⟨.ended, hs⟩
  | running =>
    cases hstep : step s with
    | fault e => exact .inl ⟨.faulted e, hs, hstep⟩
    | refused e => exact .inl ⟨.refused e, hs, hstep⟩
    | next t => exact .inr ⟨rfl, t, rfl⟩

theorem runFrom_of_endsWith {s : State} {e : EndStatus} (h : EndsWith s e) (n k : Nat) :
    runFrom n k s = .stopped s e k := by
  cases e with
  | ended => exact runFrom_of_ended h n k
  | faulted e => exact runFrom_of_fault h.1 h.2 n k
  | refused e => exact runFrom_of_refused h.1 h.2 n k

/-- A run goes through the cycles that its bound covers, and counts them. -/
theorem runFrom_of_cycles {c : Nat} {s t : State} (h : Cycles c s t) (n k : Nat) :
    runFrom (n + c) k s = runFrom n (k + c) t := by
  induction c generalizing s k with
  | zero => rw [show t = s from h, Nat.add_zero, Nat.add_zero]
  | succ c ih =>
    obtain ⟨hs, u, hu, hcycles⟩ := h
    rw [← Nat.add_assoc, runFrom_succ_of_next hs hu, ih hcycles, Nat.add_right_comm, Nat.add_assoc]

/-- Within any bound the run reaches an end, or that many cycles lead to a state that can complete another. -/
theorem cycles_to_end_or_bound (bound : Nat) (s : State) :
    (∃ c t e, c ≤ bound ∧ Cycles c s t ∧ EndsWith t e) ∨
      ∃ t, Cycles bound s t ∧ t.status = .running ∧ ∃ v, step t = .next v := by
  induction bound generalizing s with
  | zero =>
    rcases endsWith_or_next s with ⟨e, he⟩ | hnext
    · exact .inl ⟨0, s, e, Nat.le_refl 0, rfl, he⟩
    · exact .inr ⟨s, rfl, hnext⟩
  | succ n ih =>
    rcases endsWith_or_next s with ⟨e, he⟩ | ⟨hs, u, hu⟩
    · exact .inl ⟨0, s, e, Nat.zero_le _, rfl, he⟩
    · rcases ih u with ⟨c, t, e, hc, hcycles, he⟩ | ⟨t, hcycles, hnext⟩
      · exact .inl ⟨c + 1, t, e, Nat.succ_le_succ hc, ⟨hs, u, hu, hcycles⟩, he⟩
      · exact .inr ⟨t, ⟨hs, u, hu, hcycles⟩, hnext⟩

theorem runFrom_stopped_of_cycles {bound c : Nat} {s t : State} {e : EndStatus} (hc : c ≤ bound)
    (hcycles : Cycles c s t) (he : EndsWith t e) : runFrom bound 0 s = .stopped t e c := by
  have h := runFrom_of_cycles hcycles (bound - c) 0
  rwa [Nat.sub_add_cancel hc, Nat.zero_add, runFrom_of_endsWith he] at h

theorem runFrom_outOfCycles_of_cycles {bound : Nat} {s t v : State} (hcycles : Cycles bound s t)
    (hs : t.status = .running) (hv : step t = .next v) : runFrom bound 0 s = .outOfCycles t := by
  have h := runFrom_of_cycles hcycles 0 0
  rwa [Nat.zero_add, runFrom_zero_of_next hs hv] at h

end Sys2Proof.Claims

namespace Sys2Proof.Proofs

open Sys2Proof.Machine Sys2Proof.Claims

/-- Settles O13: an ended run stays as it is, and every completed cycle keeps the invariant
(`exec_keeps_hazardInv`). -/
theorem stepKeepsTheHazardInvariant : Obligations.StepKeepsTheHazardInvariant := by
  intro s t hrf hgated hinv hstep
  rcases step_cases s with ⟨-, hs⟩ | ⟨-, hs⟩
  · obtain rfl : t = s := Host.Outcome.next.inj (hstep.symm.trans hs)
    exact hinv
  · exact exec_keeps_hazardInv hrf hgated hinv (hs ▸ hstep)

/-- Settles O25: the end-of-run test is the boundary's own; past the image a no-op is fetched, behind which an idle
pipeline changes nothing (`exec_noOp_of_idle`). -/
theorem endOfRunIsDrained : Obligations.EndOfRunIsDrained := by
  refine ⟨fun i s t h => ?test, fun s hpast hidle => ?further⟩
  case test =>
    obtain ⟨-, m, -, rfl⟩ := exec_next h
    rw [State.endOfCycle_ended_iff, pastImage_iff, idle_iff]
  case further =>
    rw [decode_fetchWord_of_pastImage hpast]
    exact exec_noOp_of_idle hidle

/-- Settles O26: two stalls leave bubbles in EX and MEM, and behind bubbles neither rule stalls. -/
theorem noInstructionStallsMoreThanTwice : Obligations.NoInstructionStallsMoreThanTwice := by
  intro i s t u hs ht hst hu
  have htidex : t.idex = .zero := by rw [exec_next_idex ht, if_pos hs]
  have huidex : u.idex = .zero := by rw [exec_next_idex hu, if_pos hst]
  have huexmem : u.exmem = .zero := by rw [exec_next_exmem hu, htidex, execute_zero]
  simp [stalls_eq_false_iff, storeRuleStalls, loadRuleStalls, huidex, huexmem, IdEx.zero, ExMem.zero]

/-- Settles O28: the values in ID/EX are the register file's, and no load in MEM writes a register that is an ALU input,
so each resolver gives what its register holds after both write-backs (`forward_eq_read_after`). -/
theorem forwardedInputsAreTheLatestValues : Obligations.ForwardedInputsAreTheLatestValues := by
  intro i j s t u hinv hhazard hactive hlui hexmem hmemwb ht hu
  obtain ⟨hrs, hrt⟩ := hhazard.operandsCurrent hactive
  obtain ⟨-, hsource, -⟩ := hinv.exmemLegal
  have hnoLoad {r : RegIdx} (hne : s.exmem.memRead = true → s.exmem.dest ≠ r) :
      s.exmem.dest = r → s.exmem.memToReg = false := fun hd =>
    hsource ▸ Bool.eq_false_iff.2 fun hload => hne hload hd
  have hahead (hload : s.exmem.memRead = true) := hhazard.noLoadAhead hload hactive hlui
  constructor
  · rw [aluInput1, hrs]
    exact forward_eq_read_after ht hu hexmem hmemwb (hnoLoad fun hload => (hahead hload).1)
  · intro hreg
    rw [aluInput2, hreg, hrt]
    exact forward_eq_read_after ht hu hexmem hmemwb (hnoLoad fun hload => (hahead hload).2 hreg)

/-- Settles O29: with a writer of the register in WB, the store takes what that writes back; without one, its value is
the register file's by the invariant. -/
theorem storedWordIsTheLatestValue : Obligations.StoredWordIsTheLatestValue := by
  intro i s t hinv hwf hstore hlui h
  have hwritten : t.dmem = s.dmem.writeWord (4 * wordIndex s.exmem.aluResult) (storeValue s.exmem s.memwb) :=
    memoryStage_store (exec_next_memoryStage h) hstore
  rw [hwritten, Memory.readWord_writeWord hwf, exec_next_rf h, writeBack_read, written_eq_forwarded hlui, storeValue]
  simp only [eq_comm (a := s.exmem.dest)]
  split_ifs with hwriter
  · rfl
  · exact hinv.storeValueCurrent hstore hwriter

/-- Settles O51: cycles that lead to an end, or to the bound, determine what the host gets, and from every state one of
the two is reached (`cycles_to_end_or_bound`). The bound counts committed cycles (log entry 18). -/
theorem hostStopsAtTheFirstEndStatus : Obligations.HostStopsAtTheFirstEndStatus := by
  intro bound s t
  refine ⟨fun status cycles => ⟨fun h => ?stopped, fun ⟨hc, hcycles, he⟩ => runFrom_stopped_of_cycles hc hcycles he⟩,
    fun h => ?bound, fun ⟨hcycles, hs, v, hv⟩ => runFrom_outOfCycles_of_cycles hcycles hs hv⟩
  case stopped =>
    rcases cycles_to_end_or_bound bound s with ⟨c, t', e, hc, hcycles, he⟩ | ⟨t', hcycles, hs, v, hv⟩
    · cases h.symm.trans (runFrom_stopped_of_cycles hc hcycles he)
      exact ⟨hc, hcycles, he⟩
    · cases h.symm.trans (runFrom_outOfCycles_of_cycles hcycles hs hv)
  case bound =>
    rcases cycles_to_end_or_bound bound s with ⟨c, t', e, hc, hcycles, he⟩ | ⟨t', hcycles, hs, v, hv⟩
    · cases h.symm.trans (runFrom_stopped_of_cycles hc hcycles he)
    · cases h.symm.trans (runFrom_outOfCycles_of_cycles hcycles hs hv)
      exact ⟨hcycles, hs, v, hv⟩

end Sys2Proof.Proofs
